-- ==== Sys2Proof/Word.lean ====
section
/-! DEFINITION. The words on the ports of CORE (10_state.md R22) and the command they make up
(30_encoding.md R45). Bit 0 is the least significant bit of every word (00_scope.md R7). -/

namespace Sys2Proof

/-- The operation select `op` (R22, R46). -/
abbrev OpCode := BitVec 4

/-- An operand port, and a binary64 pattern (R22, R28). -/
abbrev Word64 := BitVec 64

/-- The result port `y`, and a binary32 pattern (R22, R24). -/
abbrev Word32 := BitVec 32

/-- A binary16 or bfloat16 pattern (R25, R26). -/
abbrev Word16 := BitVec 16

/-- A micro-float E4M3 pattern (R27). -/
abbrev Word8 := BitVec 8

/-- The index of a descriptor ROM word (R34). -/
abbrev RomIndex := BitVec 2

/-- The 260-bit vector `op ++ abs_tol ++ rel ++ b ++ a` of R45. -/
abbrev CommandBits := BitVec 260

/-- A command: the value on the five input ports at one evaluation (R45). -/
structure Command where
  op : OpCode
  a : Word64
  b : Word64
  rel : Word64
  absTol : Word64
deriving DecidableEq, Repr

end Sys2Proof
end

