-- ==== Sys2Proof/Syntax.lean ====
section
/-! DEFINITION. The ten operations of CORE (30_encoding.md R46). Each carries exactly the operand slice it uses, so
that the bits it ignores cannot reach its result (R47). -/

namespace Sys2Proof

/-- One constructor per row of spec/opcode_table.json. -/
inductive Instr where
  /-- `ENC32`: operand `a[31:0]`, a binary32 value (R58). -/
  | enc32 (f : Word32)
  /-- `DEC32`: operand `a[31:0]` (R59). -/
  | dec32 (p : Word32)
  /-- `ENC16`: operand `a[31:0]`, binary32 (R62). -/
  | enc16 (f : Word32)
  /-- `DEC16`: operand `a[15:0]`, binary16 (R70). -/
  | dec16 (h : Word16)
  /-- `ENCBF16`: operand `a[31:0]`, binary32 (R75). -/
  | encbf16 (f : Word32)
  /-- `DECBF16`: operand `a[15:0]`, bfloat16 (R80). -/
  | decbf16 (p : Word16)
  /-- `ENC8`: operand `a[31:0]`, binary32 (R83). -/
  | enc8 (f : Word32)
  /-- `DEC8`: operand `a[7:0]`, micro-float E4M3 (R88). -/
  | dec8 (p : Word8)
  /-- `LOOKUP`: operand `a[1:0]`, the format index (R55). -/
  | lookup (fmt : RomIndex)
  /-- `ISCLOSE`: operands `a`, `b`, `rel`, `abs_tol`, binary64 (R92). -/
  | isclose (a b rel absTol : Word64)
deriving DecidableEq, Repr

/-- The mnemonic of an operation, as R46 spells it. -/
def Instr.mnemonic : Instr → String
  | .enc32 _ => "ENC32"
  | .dec32 _ => "DEC32"
  | .enc16 _ => "ENC16"
  | .dec16 _ => "DEC16"
  | .encbf16 _ => "ENCBF16"
  | .decbf16 _ => "DECBF16"
  | .enc8 _ => "ENC8"
  | .dec8 _ => "DEC8"
  | .lookup _ => "LOOKUP"
  | .isclose _ _ _ _ => "ISCLOSE"

end Sys2Proof
end

