-- ==== Sys2Proof/WellFormed.lean ====
section
/-! DEFINITION. What makes a command well formed, and what the host owes the block for a result to mean what the
source intends (70_reset_and_hazards.md R115). An operation by itself is never ill formed: every operand
pattern is legal (30_encoding.md R50), and the operand widths are in the types of `Instr`. -/

namespace Sys2Proof

/-- `op` is one of the ten defined codes, not a reserved one (R46, R49, R115 first row). -/
def Command.wellFormed (c : Command) : Bool :=
  c.op.toNat < 10

/-- A tolerance the source's contract allows: a binary64 pattern that is not a NaN and whose value is not negative
(R98, R115 second row); the negative zero is not negative. -/
def toleranceWellFormed (t : Word64) : Bool :=
  let magnitude := t.toNat % 2 ^ 63
  magnitude ≤ 0x7FF0000000000000 && (t.toNat < 2 ^ 63 || magnitude == 0)

/-- The host's duty toward one operation (R115): ISCLOSE asks for well-formed tolerances, the others for nothing. The
block does not check it (R98). -/
def Instr.hostDutyMet : Instr → Bool
  | .enc32 _ => true
  | .dec32 _ => true
  | .enc16 _ => true
  | .dec16 _ => true
  | .encbf16 _ => true
  | .decbf16 _ => true
  | .enc8 _ => true
  | .dec8 _ => true
  | .lookup _ => true
  | .isclose _ _ rel absTol => toleranceWellFormed rel && toleranceWellFormed absTol

end Sys2Proof
end

