-- ==== Sys2Proof/Decode.lean ====
section
/-! DEFINITION. Commands as bits, the decoder and the encoder (30_encoding.md R45 to R51). Decoding looks at `op` and at
nothing else, is total on all 260 bits, and refuses the six reserved codes by name. -/

namespace Sys2Proof

/-- The 260-bit vector of a command: `op` in [259:256], `abs_tol` in [255:192], `rel` in [191:128], `b` in
[127:64], `a` in [63:0] (R45). -/
def Command.toBits (c : Command) : CommandBits :=
  c.op ++ c.absTol ++ c.rel ++ c.b ++ c.a

/-- The command that a 260-bit vector stands for (R45). -/
def Command.ofBits (v : CommandBits) : Command where
  op := v.extractLsb' 256 4
  a := v.extractLsb' 0 64
  b := v.extractLsb' 64 64
  rel := v.extractLsb' 128 64
  absTol := v.extractLsb' 192 64

/-- Why a command has no operation. -/
inductive DecodeError where
  /-- `op` is one of `0xA` to `0xF` (R49). -/
  | reservedOp (op : OpCode)
deriving DecidableEq, Repr

/-- A row of the operation table of R46, by match and mask over the 4-bit `op` field. -/
structure OpRow where
  mnemonic : String
  code : OpCode
  mask : OpCode
deriving DecidableEq, Repr

/-- The operation table of R46. -/
def opTable : List OpRow :=
  [⟨"ENC32", 0x0, 0xF⟩, ⟨"DEC32", 0x1, 0xF⟩, ⟨"ENC16", 0x2, 0xF⟩, ⟨"DEC16", 0x3, 0xF⟩,
   ⟨"ENCBF16", 0x4, 0xF⟩, ⟨"DECBF16", 0x5, 0xF⟩, ⟨"ENC8", 0x6, 0xF⟩, ⟨"DEC8", 0x7, 0xF⟩,
   ⟨"LOOKUP", 0x8, 0xF⟩, ⟨"ISCLOSE", 0x9, 0xF⟩]

/-- The operation a command asks for (R46), each with the operand bits of R47. -/
def decode (c : Command) : Except DecodeError Instr :=
  match c.op.toNat with
  | 0x0 => .ok (.enc32 (c.a.extractLsb' 0 32))
  | 0x1 => .ok (.dec32 (c.a.extractLsb' 0 32))
  | 0x2 => .ok (.enc16 (c.a.extractLsb' 0 32))
  | 0x3 => .ok (.dec16 (c.a.extractLsb' 0 16))
  | 0x4 => .ok (.encbf16 (c.a.extractLsb' 0 32))
  | 0x5 => .ok (.decbf16 (c.a.extractLsb' 0 16))
  | 0x6 => .ok (.enc8 (c.a.extractLsb' 0 32))
  | 0x7 => .ok (.dec8 (c.a.extractLsb' 0 8))
  | 0x8 => .ok (.lookup (c.a.extractLsb' 0 2))
  | 0x9 => .ok (.isclose c.a c.b c.rel c.absTol)
  | _ => .error (.reservedOp c.op)

/-- The decoder on the 260-bit vector. -/
def decodeBits (v : CommandBits) : Except DecodeError Instr :=
  decode (Command.ofBits v)

/-- A command of one operand, right-justified in `a`; every bit the operation ignores is zero (log 12). -/
def oneOperand {w : Nat} (op : OpCode) (x : BitVec w) : Command where
  op := op
  a := x.setWidth 64
  b := 0
  rel := 0
  absTol := 0

/-- The command that asks for an operation (R46, R47). -/
def encode : Instr → Command
  | .enc32 f => oneOperand 0x0 f
  | .dec32 p => oneOperand 0x1 p
  | .enc16 f => oneOperand 0x2 f
  | .dec16 h => oneOperand 0x3 h
  | .encbf16 f => oneOperand 0x4 f
  | .decbf16 p => oneOperand 0x5 p
  | .enc8 f => oneOperand 0x6 f
  | .dec8 p => oneOperand 0x7 p
  | .lookup fmt => oneOperand 0x8 fmt
  | .isclose a b rel absTol => ⟨0x9, a, b, rel, absTol⟩

/-- The encoder to the 260-bit vector. -/
def encodeBits (i : Instr) : CommandBits :=
  (encode i).toBits

/-- The number of low bits of `a` that an operation reads (R46 column "operand"). -/
def Instr.operandBits : Instr → Nat
  | .enc32 _ => 32
  | .dec32 _ => 32
  | .enc16 _ => 32
  | .dec16 _ => 16
  | .encbf16 _ => 32
  | .decbf16 _ => 16
  | .enc8 _ => 32
  | .dec8 _ => 8
  | .lookup _ => 2
  | .isclose _ _ _ _ => 64

/-- A word numbered as spec/opcode_table.json numbers it, with `op` in bits [3:0], read as a command; the operand ports
follow it in the order `a`, `b`, `rel`, `abs_tol`, and every bit from `nbits` up is 0 (log 13). -/
def commandOfTableWord (nbits w : Nat) : Command :=
  let v := w % 2 ^ nbits
  { op := BitVec.ofNat 4 v
    a := BitVec.ofNat 64 (v / 2 ^ 4)
    b := BitVec.ofNat 64 (v / 2 ^ 68)
    rel := BitVec.ofNat 64 (v / 2 ^ 132)
    absTol := BitVec.ofNat 64 (v / 2 ^ 196) }

/-- What the decoder reads from a table word: the word is laid out as the 260-bit vector of R45 and decoded. -/
def decodeTableWord (nbits w : Nat) : Option Instr :=
  match decodeBits (commandOfTableWord nbits w).toBits with
  | .ok i => some i
  | .error _ => none

end Sys2Proof
end

