-- ==== Sys2Proof/Config.lean ====
section
/-! DEFINITION. What is fixed for the block: the formats it knows and the record that describes one
(00_scope.md R6, 10_state.md R20). The values of the records are in Sys2Proof/Machine/Formats.lean. The OPEN parameter LATENCY
reaches no rule and is not carried (R118, log 8); no value that reaches `y` is left open, so there is no free value here. -/

namespace Sys2Proof

/-- The number formats of R24 to R28. The first four are in the descriptor ROM; binary64 is the
comparator's operand format only. The constructor stands for the record's `name` (R57). -/
inductive Format where
  | binary32
  | binary16
  | bfloat16
  | e4m3
  | binary64
deriving DecidableEq, Repr

/-- The numeric fields of the source's FormatDescriptor (R20). -/
structure FormatDescriptor where
  totalBits : Nat
  exponentBits : Nat
  mantissaBits : Nat
  bias : Nat
deriving DecidableEq, Repr

/-- The class of a pattern (R30). -/
inductive FloatClass where
  | zero
  | subnormal
  | normal
  | infinity
  | nan
deriving DecidableEq, Repr

end Sys2Proof
end

