-- ==== Sys2Proof/Machine/Formats.lean ====
section
/-! DEFINITION. The format descriptors (10_state.md R20, R28), and a pattern's fields and class in any format (R24 to R30). -/

namespace Sys2Proof.Machine

/-- The record of a format (R20; binary64 by R28, log 10). -/
def descriptor : Format → FormatDescriptor
  | .binary32 => ⟨32, 8, 23, 127⟩
  | .binary16 => ⟨16, 5, 10, 15⟩
  | .bfloat16 => ⟨16, 8, 7, 127⟩
  | .e4m3 => ⟨8, 4, 3, 7⟩
  | .binary64 => ⟨64, 11, 52, 1023⟩

/-- The sign bit of a pattern (R24 to R28). -/
def signOf (F : Format) {w : Nat} (p : BitVec w) : Bool :=
  p.getLsbD ((descriptor F).totalBits - 1)

/-- The exponent field of a pattern (R24 to R28). -/
def exponentOf (F : Format) {w : Nat} (p : BitVec w) : Nat :=
  p.toNat / 2 ^ (descriptor F).mantissaBits % 2 ^ (descriptor F).exponentBits

/-- The mantissa field of a pattern (R24 to R28). -/
def mantissaOf (F : Format) {w : Nat} (p : BitVec w) : Nat :=
  p.toNat % 2 ^ (descriptor F).mantissaBits

/-- The exponent field of all ones, which infinities and NaNs have (R30). -/
def exponentMax (F : Format) : Nat :=
  2 ^ (descriptor F).exponentBits - 1

/-- The class of a pattern (R30); the sign plays no part. -/
def classify (F : Format) {w : Nat} (p : BitVec w) : FloatClass :=
  if exponentOf F p = 0 then
    if mantissaOf F p = 0 then .zero else .subnormal
  else if exponentOf F p = exponentMax F then
    if mantissaOf F p = 0 then .infinity else .nan
  else .normal

/-- A pattern that has a rational value: neither an infinity nor a NaN (R29). -/
def isFinite (F : Format) {w : Nat} (p : BitVec w) : Bool :=
  exponentOf F p != exponentMax F

end Sys2Proof.Machine
end

