-- ==== Sys2Proof/Machine/Operands.lean ====
section
/-! DEFINITION. The fields of the operand patterns and the lanes of operands and results (10_state.md R24 to R28, 30_encoding.md
R47, R48). -/

namespace Sys2Proof.Machine

/-- The sign bit `p[31]` of a binary32 pattern (R24). -/
def sign32 (p : Word32) : BitVec 1 := p.extractLsb' 31 1

/-- The exponent field `p[30:23]` of a binary32 pattern (R24). -/
def exponent32 (p : Word32) : BitVec 8 := p.extractLsb' 23 8

/-- The mantissa field `p[22:0]` of a binary32 pattern (R24). -/
def mantissa32 (p : Word32) : BitVec 23 := p.extractLsb' 0 23

/-- The sign bit `p[15]` of a binary16 pattern (R25). -/
def sign16 (p : Word16) : BitVec 1 := p.extractLsb' 15 1

/-- The exponent field `p[14:10]` of a binary16 pattern (R25). -/
def exponent16 (p : Word16) : BitVec 5 := p.extractLsb' 10 5

/-- The mantissa field `p[9:0]` of a binary16 pattern (R25). -/
def mantissa16 (p : Word16) : BitVec 10 := p.extractLsb' 0 10

/-- The sign bit `p[7]` of a micro-float pattern (R27). -/
def sign8 (p : Word8) : BitVec 1 := p.extractLsb' 7 1

/-- The exponent field `p[6:3]` of a micro-float pattern (R27). -/
def exponent8 (p : Word8) : BitVec 4 := p.extractLsb' 3 4

/-- The mantissa field `p[2:0]` of a micro-float pattern (R27). -/
def mantissa8 (p : Word8) : BitVec 3 := p.extractLsb' 0 3

/-- The sign bit `p[63]` of a binary64 pattern (R28). -/
def sign64 (p : Word64) : BitVec 1 := p.extractLsb' 63 1

/-- The exponent field `p[62:52]` of a binary64 pattern (R28). -/
def exponent64 (p : Word64) : BitVec 11 := p.extractLsb' 52 11

/-- The mantissa field `p[51:0]` of a binary64 pattern (R28). -/
def mantissa64 (p : Word64) : BitVec 52 := p.extractLsb' 0 52

/-- A magnitude with a sign bit above it: the rules' `(s << n) | magnitude` for a magnitude of n bits. -/
def withSign {n : Nat} (s : BitVec 1) (magnitude : BitVec n) : BitVec (1 + n) :=
  s ++ magnitude

/-- A narrower result on the 32-bit port: right-justified, zeros above (R48). -/
def resultLane {w : Nat} (v : BitVec w) : Word32 :=
  v.setWidth 32

/-- The Boolean of ISCLOSE on the port: `y[0]`, 1 for true (R48). -/
def booleanLane (v : Bool) : Word32 :=
  if v then 1 else 0

end Sys2Proof.Machine
end

