-- ==== Sys2Proof/Machine/State.lean ====
section
/-! DEFINITION. The state of a run. The block itself keeps nothing from one evaluation to the next (10_state.md R14 to R19, R32);
what State holds is what stands on its ports (R22) and the host's part of the run: the commands it has still to present and the
evaluations it has collected (95_test_vectors.md section 4; log 3). -/

namespace Sys2Proof.Machine

/-- Nobody raises a fault: no operation raises anything for any input, and nothing in this block is to be modelled as
a fault or as stuck (60_exceptions.md R101; 93_implementation_defined.md). The type is empty, which is safe (log 6). -/
inductive Fault where
deriving DecidableEq, Repr

/-- Why a step has no next state. -/
inductive Refusal where
  /-- Raised by the dispatch for an operation without a meaning yet; no arm raises it. Safe. -/
  | notModelled (mnemonic : String)
  /-- Raised by `step` for a command whose `op` is one of `0xA` to `0xF`: "A model must refuse a command with a reserved
  code" (30_encoding.md R49). Safe: no claim is made about `y`. -/
  | reservedOperation (op : OpCode)
deriving DecidableEq, Repr

/-- The ports of CORE, and the host's commands and results. -/
structure State where
  /-- The values on the five input ports (R22, R45). -/
  inputs : Command
  /-- The value on the output port (R22). -/
  y : Word32
  /-- The model's own field: the commands the host has still to present, oldest first (log 3). -/
  pending : List Command
  /-- The model's own field: the evaluations made, each command with its `y`, oldest first (R14, R53; log 3). -/
  transcript : List (Command × Word32)
deriving DecidableEq, Repr

/-- The inputs before the host has presented anything: DESIGN CHOICE, all zero (log 1); the spec gives no value (R32, R113). -/
def resetInputs : Command where
  op := 0
  a := 0
  b := 0
  rel := 0
  absTol := 0

/-- The machine right after power-up. There is no reset input and no state to reset (R32, R113). The inputs are the DESIGN CHOICE
of log 1; `y` is the function of those inputs, which is 0 (R113, log 2); the host has queued and collected nothing (log 3). -/
def State.reset : State where
  inputs := resetInputs
  y := 0
  pending := []
  transcript := []

end Sys2Proof.Machine
end

