-- ==== Sys2Proof/Machine/Ops.lean ====
section
/-! DEFINITION. The operations the meanings share: driving the result port (00_scope.md R10), reading the descriptor ROM (20_memory.md
R34, R35), rounding to nearest with ties to even (R12), the host's two actions around an evaluation (R13, R117; log 3). There is no
exception to take and none to return from (60_exceptions.md R101, R104, R105). -/

namespace Sys2Proof.Machine

/-- `y <- v` (R10): the only thing a meaning does to the state. -/
def State.driveY (v : Word32) (s : State) : State :=
  { s with y := v }

/-- The host presents its next command, all five ports together (R117); with none pending the ports keep the values
they have. -/
def State.present (s : State) : State :=
  match s.pending with
  | [] => s
  | c :: rest => { s with inputs := c, pending := rest }

/-- The host takes `y` and records it with the command that gave it (R13; log 3). -/
def State.collect (s : State) : State :=
  { s with transcript := s.transcript ++ [(s.inputs, s.y)] }

/-- The format whose record stands at a ROM index (R20, R34). -/
def romFormat (i : RomIndex) : Format :=
  match i.toNat with
  | 0 => .binary32
  | 1 => .binary16
  | 2 => .bfloat16
  | _ => .e4m3

/-- A record packed into a ROM word, one byte a field (R35). -/
def packDescriptor (d : FormatDescriptor) : Word32 :=
  BitVec.ofNat 8 d.totalBits ++ BitVec.ofNat 8 d.exponentBits ++ BitVec.ofNat 8 d.mantissaBits ++ BitVec.ofNat 8 d.bias

/-- `RomRead(i)` (R10, R35). -/
def romRead (i : RomIndex) : Word32 :=
  packDescriptor (descriptor (romFormat i))

/-- The position of the highest set bit of a positive number (R11). -/
def msb (n : Nat) : Nat :=
  Nat.log2 n

/-- `n / 2^sh` rounded to the nearest integer, a tie to the even one (R12, and the last lines of R62). -/
def roundShift (n sh : Nat) : Nat :=
  let q := n / 2 ^ sh
  let r := n % 2 ^ sh
  let half := 2 ^ (sh - 1)
  if half < r ∨ (r = half ∧ q % 2 = 1) then q + 1 else q

/-- The magnitude pattern (sign 0) in format `F` of the value `n / 2^k` units, the unit being the least subnormal of `F`: nearest, ties
to even, subnormal results allowed, infinity on overflow (R12, R93). The low `drop` bits above the mantissa width are rounded away, and the
exponent field counts them; a carry out of the mantissa runs into the exponent. -/
def roundMagnitude (F : Format) (n k : Nat) : Nat :=
  let M := (descriptor F).mantissaBits
  let drop := msb n - (k + M)
  let p := drop * 2 ^ M + roundShift n (k + drop)
  min p (exponentMax F * 2 ^ M)

end Sys2Proof.Machine
end

