-- ==== Sys2Proof/Machine/Bfloat16.lean ====
section
/-! DEFINITION. Module binary32_to_bfloat16_converter, ENCBF16 and DECBF16 (43_bfloat16.md R75 to R82). -/

namespace Sys2Proof.Machine

/-- The third case of ENCBF16 (R75): the truncated result, rounded up above the midpoint and at a tie on an odd result (C1). -/
def encbf16Round (bits : Word32) : Word16 :=
  let t := bits.extractLsb' 16 16
  let low := bits.extractLsb' 0 16
  if low > 0x8000#16 ∨ (low = 0x8000#16 ∧ t.getLsbD 0 = true) then t + 1 else t

/-- ENCBF16 on patterns, its three cases in the order of R75. -/
def encbf16 (bits : Word32) : Word16 :=
  if (bits &&& 0x7FFFFFFF#32) > 0x7F800000#32 then bits.extractLsb' 16 16 ||| 0x0040#16
  else if (bits &&& 0x7F800000#32) = 0 then bits.extractLsb' 16 16 &&& 0x8000#16
  else encbf16Round bits

/-- DECBF16 on patterns (R80); the NaN keeps its payload and gets the quiet bit (R81; log 4). -/
def decbf16 (p : Word16) : Word32 :=
  let result : Word32 := p ++ 0#16
  if exponent32 result = 0xFF#8 then
    if mantissa32 result = 0 then result else result ||| 0x00400000#32
  else if exponent32 result = 0 then result &&& 0x80000000#32
  else result

/-- ENCBF16 (R75): the result is `y[15:0]`. -/
def execEncbf16 (f : Word32) (s : State) : Host.Outcome State Fault Refusal :=
  .next (s.driveY (resultLane (encbf16 f)))

/-- DECBF16 (R80). -/
def execDecbf16 (p : Word16) (s : State) : Host.Outcome State Fault Refusal :=
  .next (s.driveY (resultLane (decbf16 p)))

end Sys2Proof.Machine
end

