-- ==== Sys2Proof/Machine/Binary16.lean ====
section
/-! DEFINITION. Module binary32_to_binary16_converter, ENC16 and DEC16 (42_binary16.md R62 to R74). -/

namespace Sys2Proof.Machine

/-- The finite branch of ENC16 (R62, its last branch): `e` is the exponent field, not 0 and not 255, `m` the mantissa field. Exponent
arithmetic is in the integers (R9). -/
def enc16Finite (e m : Nat) : Nat :=
  let sig := 2 ^ 23 + m
  let E : Int := (e : Int) - 127
  let sh := if E ≥ -14 then 13 else (-1 - E).toNat
  let q := roundShift sig sh
  if E ≥ -14 then
    let h := (E + 15).toNat * 2 ^ 10 + (q - 1024)
    if h ≥ 0x7C00 then 0x7C00 else h
  else q

/-- The fifteen bits below the sign of ENC16's result (R62). -/
def enc16Magnitude (f : Word32) : Nat :=
  let dbl := f + f
  if dbl > 0xFF000000#32 then 0x7E00
  else if dbl = 0xFF000000#32 then 0x7C00
  else if exponent32 f = 0 then 0
  else enc16Finite (exponent32 f).toNat (mantissa32 f).toNat

/-- ENC16 on patterns (R62). -/
def enc16 (f : Word32) : Word16 :=
  withSign (sign32 f) (BitVec.ofNat 15 (enc16Magnitude f))

/-- The mantissa field of the NaN that DEC16 returns: quiet bit set, the input's ten bits kept at the top (R70, R72; log 4). -/
def dec16NaN (m : BitVec 10) : BitVec 23 :=
  0x400000#23 ||| (m.setWidth 23 <<< 13)

/-- The 31 bits below the sign of DEC16's result (R70). -/
def dec16Magnitude (h : Word16) : BitVec 31 :=
  let e := exponent16 h
  let m := mantissa16 h
  if e = 0 then
    if m = 0 then 0
    else
      let k := msb m.toNat
      BitVec.ofNat 8 (103 + k) ++ (m.setWidth 23 <<< (23 - k))
  else if e = 31 then
    if m = 0 then 0x7F800000 else 0xFF#8 ++ dec16NaN m
  else BitVec.ofNat 8 (e.toNat + 112) ++ (m.setWidth 23 <<< 13)

/-- DEC16 on patterns (R70). -/
def dec16 (h : Word16) : Word32 :=
  withSign (sign16 h) (dec16Magnitude h)

/-- ENC16 (R62): the result is `y[15:0]`. -/
def execEnc16 (f : Word32) (s : State) : Host.Outcome State Fault Refusal :=
  .next (s.driveY (resultLane (enc16 f)))

/-- DEC16 (R70). -/
def execDec16 (h : Word16) (s : State) : Host.Outcome State Fault Refusal :=
  .next (s.driveY (resultLane (dec16 h)))

end Sys2Proof.Machine
end

