-- ==== Sys2Proof/Machine/Bitcast.lean ====
section
/-! DEFINITION. The binary32 bit-cast, ENC32 and DEC32 (41_bitcast32.md R58 to R61): wiring. -/

namespace Sys2Proof.Machine

/-- ENC32 on patterns: the identity (R58). -/
def enc32 (f : Word32) : Word32 := f

/-- DEC32 on patterns: the identity (R59). -/
def dec32 (p : Word32) : Word32 := p

/-- ENC32 (R58). -/
def execEnc32 (f : Word32) (s : State) : Host.Outcome State Fault Refusal :=
  .next (s.driveY (resultLane (enc32 f)))

/-- DEC32 (R59). -/
def execDec32 (p : Word32) (s : State) : Host.Outcome State Fault Refusal :=
  .next (s.driveY (resultLane (dec32 p)))

end Sys2Proof.Machine
end

