-- ==== Sys2Proof/Machine/Flags.lean ====
section
/-! DEFINITION. The block has no flags: no status bit and no IEEE exception flag is set by any operation (10_state.md R17, D19),
so there is no flag computation to write. What other hardware would read from flags is here a predicate over a
pattern's class (R30), used inside operations and by claims. -/

namespace Sys2Proof.Machine

/-- The pattern is a NaN (R30). -/
def isNaN (F : Format) {w : Nat} (p : BitVec w) : Bool :=
  classify F p == .nan

/-- The pattern is an infinity (R30). -/
def isInfinity (F : Format) {w : Nat} (p : BitVec w) : Bool :=
  classify F p == .infinity

/-- The pattern is a zero of either sign (R30). -/
def isZero (F : Format) {w : Nat} (p : BitVec w) : Bool :=
  classify F p == .zero

/-- The pattern is a subnormal (R30). -/
def isSubnormal (F : Format) {w : Nat} (p : BitVec w) : Bool :=
  classify F p == .subnormal

end Sys2Proof.Machine
end

