-- ==== Sys2Proof/Machine/Value.lean ====
section
/-! DEFINITION. The number a pattern stands for (10_state.md R29) and what it means to round a number to a format (00_scope.md R12). The
integer form is what the comparator computes with; the rational form is what claims are stated in. -/

namespace Sys2Proof.Machine

/-- The magnitude of a finite pattern in units of its format's least subnormal `2^(1 - B - M)` (R29). -/
def scaledMagnitude (F : Format) {w : Nat} (p : BitVec w) : Nat :=
  if exponentOf F p = 0 then mantissaOf F p
  else (2 ^ (descriptor F).mantissaBits + mantissaOf F p) * 2 ^ (exponentOf F p - 1)

/-- The value of a finite pattern in units of its format's least subnormal (R29). -/
def scaledValue (F : Format) {w : Nat} (p : BitVec w) : Int :=
  if signOf F p then -(scaledMagnitude F p : Int) else (scaledMagnitude F p : Int)

/-- The least subnormal of a format as a power of two: `1 - B - M = -unitExponent` (R29). -/
def unitExponent (F : Format) : Nat :=
  (descriptor F).bias + (descriptor F).mantissaBits - 1

/-- `val(F, p)` (R12, R29), the exact rational number a finite pattern stands for; claims use it of finite patterns only. -/
def val (F : Format) {w : Nat} (p : BitVec w) : ℚ :=
  (scaledValue F p : ℚ) / 2 ^ unitExponent F

/-- The magnitude from which rounding to nearest overflows to infinity: half a step above the largest finite value (R63: 65520 for
binary16; R93: 2^1024 - 2^970 for binary64). -/
def overflowThreshold (F : Format) : ℚ :=
  (2 ^ ((descriptor F).mantissaBits + 2) - 1) * 2 ^ (descriptor F).bias / 2 ^ ((descriptor F).mantissaBits + 1)

/-- `p` is the finite value of `F` nearest to `r`, and on a tie its mantissa field is even (R12). -/
def NearestEven (F : Format) {w : Nat} (r : ℚ) (p : BitVec w) : Prop :=
  isFinite F p = true ∧
  ∀ q : BitVec w, isFinite F q = true →
    |r - val F p| ≤ |r - val F q| ∧
    (|r - val F p| = |r - val F q| → val F p = val F q ∨ mantissaOf F p % 2 = 0)

/-- `p` is the finite value of `F` next to `r` toward zero: the truncation of R12, as R91 says it of ENC8. -/
def TowardZero (F : Format) {w : Nat} (r : ℚ) (p : BitVec w) : Prop :=
  isFinite F p = true ∧ |val F p| ≤ |r| ∧ 0 ≤ r * val F p ∧
  ∀ q : BitVec w, isFinite F q = true → |val F q| ≤ |r| → |val F q| ≤ |val F p|

/-- `p` is the result of rounding `r` to `F` (R12, R63, R93): the nearest finite value below the overflow threshold, the infinity of
the sign of `r` from there on. -/
def RoundsTo (F : Format) {w : Nat} (r : ℚ) (p : BitVec w) : Prop :=
  if |r| < overflowThreshold F then NearestEven F r p
  else isInfinity F p = true ∧ (signOf F p = true ↔ r < 0)

/-- `p` is less than or equal to `q` as extended numbers: false if either is a NaN, `-infinity` below and `+infinity` above every
finite value, the two zeros equal (R93 `fle`). -/
def ExtendedLe (F : Format) {w : Nat} (p q : BitVec w) : Prop :=
  isNaN F p = false ∧ isNaN F q = false ∧
  ((isInfinity F p = true ∧ signOf F p = true) ∨
   (isInfinity F q = true ∧ signOf F q = false) ∨
   (isFinite F p = true ∧ isFinite F q = true ∧ val F p ≤ val F q))

end Sys2Proof.Machine
end

