-- ==== Sys2Proof/Machine/Comparator.lean ====
section
/-! DEFINITION. Module floating_point_tolerant_comparator, ISCLOSE (45_comparator.md R92 to R99), over binary64 (10_state.md R28, log
10). Every finite binary64 value is a whole number of units of 2^-1074, so differences and products are exact integers before
their one rounding (R93, D16). -/

namespace Sys2Proof.Machine

/-- `fabs` (R93): bit 63 cleared. -/
def fabs (x : Word64) : Word64 :=
  x &&& 0x7FFFFFFFFFFFFFFF#64

/-- The place of a pattern that is not a NaN in the order of values: its value in units of 2^-1074, with the infinities outside
every finite value (R93 `fle`). -/
def orderKey (x : Word64) : Int :=
  if isInfinity .binary64 x then
    if signOf .binary64 x then -(2 ^ 2098) else 2 ^ 2098
  else scaledValue .binary64 x

/-- `feq` (R93): equal as numbers; the two zeros are equal; no NaN equals anything. -/
def feq (x y : Word64) : Bool :=
  !isNaN .binary64 x && !isNaN .binary64 y && decide (orderKey x = orderKey y)

/-- `fle` (R93): false if either is a NaN, else less than or equal as extended numbers. -/
def fle (x y : Word64) : Bool :=
  !isNaN .binary64 x && !isNaN .binary64 y && decide (orderKey x ≤ orderKey y)

/-- A binary64 pattern from its sign and the 63 bits below it. -/
def pack64 (negative : Bool) (magnitude : Nat) : Word64 :=
  withSign (BitVec.ofBool negative) (BitVec.ofNat 63 magnitude)

/-- `fsub` of two finite patterns (R93): the exact difference, rounded once. The zero of an exact zero difference is
positive (log 10; ISCLOSE never reaches it). -/
def fsub (x y : Word64) : Word64 :=
  let r := scaledValue .binary64 x - scaledValue .binary64 y
  pack64 (decide (r < 0)) (roundMagnitude .binary64 r.natAbs 0)

/-- `fmul` with a finite positive second operand (R93): a NaN, infinity or zero `x` gives itself (for a NaN and a zero R93 leaves the
pattern open, log 10); otherwise the exact product, rounded once, with the sign of `x`. The product of two counts of units of 2^-1074 counts units of 2^-2148. -/
def fmul (x y : Word64) : Word64 :=
  if isNaN .binary64 x || isInfinity .binary64 x || isZero .binary64 x then x
  else pack64 (signOf .binary64 x)
    (roundMagnitude .binary64 (scaledMagnitude .binary64 x * scaledMagnitude .binary64 y) (unitExponent .binary64))

/-- `fmaxnum` (R93, D17): a NaN argument is ignored; else the larger. -/
def fmaxnum (x y : Word64) : Word64 :=
  if isNaN .binary64 x then y
  else if isNaN .binary64 y then x
  else if fle x y then y else x

/-- `max(|a|, |b|)` of two finite patterns (R92). -/
def larger (a b : Word64) : Word64 :=
  if fle (fabs b) (fabs a) then fabs a else fabs b

/-- The tolerance of R92: `max(relative * max(|a|, |b|), absolute)`. -/
def tolerance (a b rel absTol : Word64) : Word64 :=
  fmaxnum (fmul rel (larger a b)) absTol

/-- ISCLOSE on patterns, its branches in the order of R92 (C6). -/
def isclose (a b rel absTol : Word64) : Bool :=
  if !isFinite .binary64 a || !isFinite .binary64 b then false
  else if feq a b then true
  else fle (fabs (fsub a b)) (tolerance a b rel absTol)

/-- ISCLOSE (R92): the result is `y[0]`. -/
def execIsclose (a b rel absTol : Word64) (s : State) : Host.Outcome State Fault Refusal :=
  .next (s.driveY (booleanLane (isclose a b rel absTol)))

end Sys2Proof.Machine
end

