-- ==== Sys2Proof/Machine/DescriptorRom.lean ====
section
/-! DEFINITION. Module format_descriptor_rom, LOOKUP (40_descriptor_rom.md R55 to R57). -/

namespace Sys2Proof.Machine

/-- LOOKUP (R55): the ROM word at the index. -/
def execLookup (fmt : RomIndex) (s : State) : Host.Outcome State Fault Refusal :=
  .next (s.driveY (romRead fmt))

end Sys2Proof.Machine
end

