-- ==== Sys2Proof/Machine/MicroFloat.lean ====
section
/-! DEFINITION. Module binary32_to_float8_e4m3_converter, ENC8 and DEC8 (44_float8_e4m3.md R83 to R91). -/

namespace Sys2Proof.Machine

/-- The seven bits below the sign of ENC8's result, from the exponent field and the top three mantissa bits (R83). The rebiased
exponent is an integer (R9); the subnormal branch is taken when it is at most 0 (C4). -/
def enc8Magnitude (e m3 : Nat) : Nat :=
  let e8 : Int := (e : Int) - 127 + 7
  if e8 ≤ 0 then
    let sh := (1 - e8).toNat
    if sh > 3 then 0 else (8 + m3) / 2 ^ sh
  else if e8 ≥ 15 then 0x78
  else e8.toNat * 8 + m3

/-- ENC8 on patterns (R83). -/
def enc8 (f : Word32) : Word8 :=
  withSign (sign32 f) (BitVec.ofNat 7 (enc8Magnitude (exponent32 f).toNat (f.extractLsb' 20 3).toNat))

/-- The 31 bits below the sign of DEC8's result (R88). -/
def dec8Magnitude (p : Word8) : BitVec 31 :=
  let e := exponent8 p
  let m := mantissa8 p
  if e = 0 then
    if m = 0 then 0
    else
      let k := msb m.toNat
      BitVec.ofNat 8 (118 + k) ++ (m.setWidth 23 <<< (23 - k))
  else if e = 15 then 0x7F800000
  else BitVec.ofNat 8 (e.toNat + 120) ++ (m.setWidth 23 <<< 20)

/-- DEC8 on patterns (R88). -/
def dec8 (p : Word8) : Word32 :=
  withSign (sign8 p) (dec8Magnitude p)

/-- ENC8 (R83): the result is `y[7:0]`. -/
def execEnc8 (f : Word32) (s : State) : Host.Outcome State Fault Refusal :=
  .next (s.driveY (resultLane (enc8 f)))

/-- DEC8 (R88). -/
def execDec8 (p : Word8) (s : State) : Host.Outcome State Fault Refusal :=
  .next (s.driveY (resultLane (dec8 p)))

end Sys2Proof.Machine
end

