-- ==== Sys2Proof/Machine/Dispatch.lean ====
section
/-! DEFINITION. The meaning of each operation: one arm per constructor of `Instr`. -/

namespace Sys2Proof.Machine

/-- What an operation does to the state. -/
def exec (i : Instr) (s : State) : Host.Outcome State Fault Refusal :=
  match i with
  | .enc32 f => Sys2Proof.Machine.execEnc32 f s
  | .dec32 p => Sys2Proof.Machine.execDec32 p s
  | .enc16 f => Sys2Proof.Machine.execEnc16 f s
  | .dec16 h => Sys2Proof.Machine.execDec16 h s
  | .encbf16 f => Sys2Proof.Machine.execEncbf16 f s
  | .decbf16 p => Sys2Proof.Machine.execDecbf16 p s
  | .enc8 f => Sys2Proof.Machine.execEnc8 f s
  | .dec8 p => Sys2Proof.Machine.execDec8 p s
  | .lookup fmt => Sys2Proof.Machine.execLookup fmt s
  | .isclose a b rel absTol => Sys2Proof.Machine.execIsclose a b rel absTol s

end Sys2Proof.Machine
end

