-- ==== Sys2Proof/Machine/Step.lean ====
section
/-! DEFINITION. One step: one evaluation (00_scope.md R13). The host presents its next command, the block decodes `op` and drives `y`, the
host takes `y` (70_reset_and_hazards.md R117; log 3). -/

namespace Sys2Proof.Machine

/-- One evaluation. A reserved code is refused by name (30_encoding.md R49). -/
def step (s : State) : Host.Outcome State Fault Refusal :=
  let s1 := s.present
  match decode s1.inputs with
  | .error (.reservedOp op) => .refused (.reservedOperation op)
  | .ok i =>
    match exec i s1 with
    | .next t => .next t.collect
    | .fault r => .fault r
    | .refused r => .refused r

/-- The command of a table word becomes the one the host presents next (log 13). -/
def State.withFetchWord (s : State) (nbits w : Nat) : State :=
  { s with pending := commandOfTableWord nbits w :: s.pending }

end Sys2Proof.Machine
end

