-- ==== Sys2Proof/Machine/HostSide.lean ====
section
/-! DEFINITION. The pseudo-operations of 30_encoding.md R54: round trips through a format, and the host's exact widening of a converter's
binary32 result for the comparator (45_comparator.md R100). None is an operation of the block; no meaning uses them (log 11). -/

namespace Sys2Proof.Machine

/-- `RT16` (R54). -/
def rt16 (x : Word32) : Word32 := dec16 (enc16 x)

/-- `RTBF16` (R54). -/
def rtbf16 (x : Word32) : Word32 := decbf16 (encbf16 x)

/-- `RT8` (R54). -/
def rt8 (x : Word32) : Word32 := dec8 (enc8 x)

/-- The 63 bits below the sign of `WIDEN64` (R100). -/
def widen64Magnitude (x : Word32) : BitVec 63 :=
  let e := exponent32 x
  let m := mantissa32 x
  if e = 0 then
    if m = 0 then 0
    else
      let k := msb m.toNat
      BitVec.ofNat 11 (874 + k) ++ (m.setWidth 52 <<< (52 - k))
  else if e = 255 then 0x7FF#11 ++ (m.setWidth 52 <<< 29)
  else BitVec.ofNat 11 (e.toNat + 896) ++ (m.setWidth 52 <<< 29)

/-- `WIDEN64` (R54, R100). -/
def widen64 (x : Word32) : Word64 :=
  withSign (sign32 x) (widen64Magnitude x)

end Sys2Proof.Machine
end

