-- ==== Sys2Proof/Machine/Modules.lean ====
section
/-! DEFINITION. The five modules with their own ports, and CORE as the modules side by side with a multiplexer on `y` driven by `op`
(00_scope.md R2, R13, 10_state.md R23). This is the block read as a circuit; the step reads it as operations. -/

namespace Sys2Proof.Machine

/-- The outputs of format_descriptor_rom (R23). -/
structure RomOutputs where
  totalBits : BitVec 8
  exponentBits : BitVec 8
  mantissaBits : BitVec 8
  bias : BitVec 8
deriving DecidableEq, Repr

/-- The outputs of a converter to a 16-bit format (R23): both are always driven. -/
structure Converter16Outputs where
  enc : Word16
  dec : Word32
deriving DecidableEq, Repr

/-- The outputs of the converter to the micro-float (R23). -/
structure Converter8Outputs where
  enc : Word8
  dec : Word32
deriving DecidableEq, Repr

/-- format_descriptor_rom (R23, R35). -/
def formatDescriptorRom (fmt : RomIndex) : RomOutputs :=
  let word := romRead fmt
  { totalBits := word.extractLsb' 24 8
    exponentBits := word.extractLsb' 16 8
    mantissaBits := word.extractLsb' 8 8
    bias := word.extractLsb' 0 8 }

/-- binary32_to_binary16_converter (R23). -/
def binary32ToBinary16Converter (f : Word32) (h : Word16) : Converter16Outputs where
  enc := enc16 f
  dec := dec16 h

/-- binary32_to_bfloat16_converter (R23). -/
def binary32ToBfloat16Converter (f : Word32) (p : Word16) : Converter16Outputs where
  enc := encbf16 f
  dec := decbf16 p

/-- binary32_to_float8_e4m3_converter (R23). -/
def binary32ToFloat8E4m3Converter (f : Word32) (p : Word8) : Converter8Outputs where
  enc := enc8 f
  dec := dec8 p

/-- floating_point_tolerant_comparator: the output `close` (R23). -/
def floatingPointTolerantComparator (a b rel absTol : Word64) : Bool :=
  isclose a b rel absTol

/-- CORE as a pure function of the five inputs (R13): each module is driven from the ports, and `op` picks what stands on `y`. It is
undefined, not some value, on a reserved code (R49). -/
def coreOutput (c : Command) : Option Word32 :=
  let rom := formatDescriptorRom (c.a.extractLsb' 0 2)
  let half := binary32ToBinary16Converter (c.a.extractLsb' 0 32) (c.a.extractLsb' 0 16)
  let brain := binary32ToBfloat16Converter (c.a.extractLsb' 0 32) (c.a.extractLsb' 0 16)
  let micro := binary32ToFloat8E4m3Converter (c.a.extractLsb' 0 32) (c.a.extractLsb' 0 8)
  match c.op.toNat with
  | 0x0 => some (c.a.extractLsb' 0 32)
  | 0x1 => some (c.a.extractLsb' 0 32)
  | 0x2 => some (resultLane half.enc)
  | 0x3 => some half.dec
  | 0x4 => some (resultLane brain.enc)
  | 0x5 => some brain.dec
  | 0x6 => some (resultLane micro.enc)
  | 0x7 => some micro.dec
  | 0x8 => some (rom.totalBits ++ rom.exponentBits ++ rom.mantissaBits ++ rom.bias)
  | 0x9 => some (booleanLane (floatingPointTolerantComparator c.a c.b c.rel c.absTol))
  | _ => none

end Sys2Proof.Machine
end

