-- ==== Sys2Proof/Safety.lean ====
section
/-! DEFINITION. The words claims about runs are stated in: what it is for the output to be settled, for the host's record to be
right, for a stream of commands to be one the block must serve. -/

namespace Sys2Proof

open Sys2Proof.Machine

/-- The output port carries the function of the inputs, wherever that function is defined (10_state.md R32, 70_reset_and_hazards.md
R113). -/
def Settled (s : State) : Prop :=
  ∀ v, coreOutput s.inputs = some v → s.y = v

/-- Every evaluation in the host's record is one the block makes: the result is the function CORE of its command (R13, R14). -/
def TranscriptRight (s : State) : Prop :=
  ∀ e ∈ s.transcript, coreOutput e.1 = some e.2

/-- What every evaluation keeps: a settled output and a right record. -/
structure RunInvariant (s : State) : Prop where
  settled : Settled s
  transcriptRight : TranscriptRight s

/-- Every command of a stream has a defined operation code: the host's first duty (R115). -/
def AllDefined (cs : List Command) : Prop :=
  ∀ c ∈ cs, c.wellFormed = true

end Sys2Proof
end

