-- ==== Sys2Proof/Certificates/Slice0/Obligations.lean ====
section
/-! DEFINITION. The statements for the provers, in the order of OBLIGATIONS.json: encoding, the step, the descriptor ROM, the bit-cast, the
three converters, the comparator. -/

open Sys2Proof Sys2Proof.Machine

/-! ## Encoding and decoding (30_encoding.md) -/

/-- Decoding the encoding of any operation gives it back, every operand at every value (R45, R46, R47). -/
def Obligations.DecodeOfEncodeIsTheOperation : Prop :=
  ∀ i : Instr, decodeBits (encodeBits i) = .ok i

/-- Encoding what was decoded gives the command back with the bits its operation ignores cleared (R45, R47; that they are cleared is
the model's choice, log 12). -/
def Obligations.EncodeOfDecodeClearsIgnoredBits : Prop :=
  ∀ (v : CommandBits) (i : Instr), decodeBits v = .ok i →
    (encode i).op = (Command.ofBits v).op ∧
    (encode i).a.toNat = (Command.ofBits v).a.toNat % 2 ^ i.operandBits ∧
    ((Command.ofBits v).op = 0x9 →
      (encode i).b = (Command.ofBits v).b ∧ (encode i).rel = (Command.ofBits v).rel ∧
      (encode i).absTol = (Command.ofBits v).absTol) ∧
    ((Command.ofBits v).op ≠ 0x9 → (encode i).b = 0 ∧ (encode i).rel = 0 ∧ (encode i).absTol = 0)

/-- Ten 260-bit words, written out from R45 and R46, one for each operation. -/
def Obligations.WrittenOutWordsDecode : Prop :=
  decodeBits 0x0000000000000000000000000000000000000000000000000000000003F800000#260 = .ok (.enc32 0x3F800000) ∧
  decodeBits 0x1000000000000000000000000000000000000000000000000DEADBEEFC0490FDB#260 = .ok (.dec32 0xC0490FDB) ∧
  decodeBits 0x2FFFFFFFFFFFFFFFFFFFFFFFFFFFFFFFFFFFFFFFFFFFFFFFFFFFFFFFF3F800000#260 = .ok (.enc16 0x3F800000) ∧
  decodeBits 0x300000000000000000000000000000000000000000000000000000000FFFF3C00#260 = .ok (.dec16 0x3C00) ∧
  decodeBits 0x400000000000000000000000000000000000000000000000000000000007FFFFF#260 = .ok (.encbf16 0x007FFFFF) ∧
  decodeBits 0x50000000000000000000000000000000000000000000000000000000000003F82#260 = .ok (.decbf16 0x3F82) ∧
  decodeBits 0x600000000000000000000000000000000000000000000000000000000437FFFFF#260 = .ok (.enc8 0x437FFFFF) ∧
  decodeBits 0x7000000000000000000000000000000000000000000000000FFFFFFFFFFFFFF38#260 = .ok (.dec8 0x38) ∧
  decodeBits 0x8000000000000000000000000000000000000000000000000FFFFFFFFFFFFFFFD#260 = .ok (.lookup 1) ∧
  decodeBits 0x900000000000000013F50624DD2F1A9FC40000000000000003FF0000000000000#260 =
    .ok (.isclose 0x3FF0000000000000 0x4000000000000000 0x3F50624DD2F1A9FC 0x0000000000000001)

/-- "The meaning of `op` never depends on anything but `op`" (R51): two commands with one `op` have one operation, or none. -/
def Obligations.OnlyOpTakesPartInDecoding : Prop :=
  ∀ c c' : Command, c.op = c'.op →
    (∀ i, decode c = .ok i → ∃ i', decode c' = .ok i' ∧ i'.mnemonic = i.mnemonic) ∧
    (∀ e, decode c = .error e → decode c' = .error e)

/-- The bits an operation does not use may hold anything and do not change `y` (R47). -/
def Obligations.UnusedInputBitsDoNotChangeY : Prop :=
  ∀ (c c' : Command) (i : Instr) (s : State) (rest : List Command),
    decode c = .ok i → c'.op = c.op →
    c'.a.toNat % 2 ^ i.operandBits = c.a.toNat % 2 ^ i.operandBits →
    (c.op = 0x9 → c'.b = c.b ∧ c'.rel = c.rel ∧ c'.absTol = c.absTol) →
    decode c' = .ok i ∧
    ∃ t t', step { s with pending := c :: rest } = .next t ∧ step { s with pending := c' :: rest } = .next t' ∧ t'.y = t.y

/-- A result narrower than `y` stands in its low bits, with zeros above (R48): 16 bits, 8 bits, one bit. -/
def Obligations.NarrowResultsAreZeroExtended : Prop :=
  ∀ (f : Word32) (a b rel absTol : Word64) (s : State),
    (∃ y, exec (.enc16 f) s = .next { s with y := y } ∧ y.toNat < 2 ^ 16) ∧
    (∃ y, exec (.encbf16 f) s = .next { s with y := y } ∧ y.toNat < 2 ^ 16) ∧
    (∃ y, exec (.enc8 f) s = .next { s with y := y } ∧ y.toNat < 2 ^ 8) ∧
    (∃ y, exec (.isclose a b rel absTol) s = .next { s with y := y } ∧ (y = 0 ∨ y = 1))

/-! ## The step and sequences of evaluations (00_scope.md R13, 10_state.md R14, 70_reset_and_hazards.md) -/

/-- A command with a reserved code is refused (R49), and no other command is: every operand of a defined operation is legal and nothing
is raised (R50, R101). That the refusal is the step's, under the name `reservedOperation`, is the model's reading (log 5). -/
def Obligations.ExactlyTheReservedCodesAreRefused : Prop :=
  ∀ s : State,
    (10 ≤ s.present.inputs.op.toNat → step s = .refused (.reservedOperation s.present.inputs.op)) ∧
    (∀ r, step s = .refused r → 10 ≤ s.present.inputs.op.toNat)

/-- Every evaluation of a defined operation completes (R50, R101, R104, R118); around it the host presents its oldest pending command,
or holds the ports, and records the command with its `y` (the model's choice, log 3). -/
def Obligations.EveryDefinedCommandCompletes : Prop :=
  ∀ s : State,
    (∀ c rest, s.pending = c :: rest → c.op.toNat < 10 →
      ∃ y, step s = .next { inputs := c, y := y, pending := rest, transcript := s.transcript ++ [(c, y)] }) ∧
    (s.pending = [] → s.inputs.op.toNat < 10 →
      ∃ y, step s = .next { s with y := y, transcript := s.transcript ++ [(s.inputs, y)] })

/-- A step is the meaning of the operation that the presented command decodes to, between the host's two actions (log 3). -/
def Obligations.StepRunsTheDecodedOperation : Prop :=
  ∀ (s : State) (i : Instr) (t : State), decode s.present.inputs = .ok i → exec i s.present = .next t →
    step s = .next { t with transcript := t.transcript ++ [(t.inputs, t.y)] } ∧
    (s.pending = [] → s.present = s) ∧
    (∀ c rest, s.pending = c :: rest → s.present = { s with inputs := c, pending := rest })

/-- An operation drives `y` and changes nothing else, and the value it drives depends on the operation and its operands alone: it
reads no state, whatever the state is (R13, R14). This is the frame and the completion of all ten operations. -/
def Obligations.EveryOperationOnlyDrivesY : Prop :=
  ∀ i : Instr, ∃ y : Word32, ∀ s : State, exec i s = .next { s with y := y }

/-- "The output `y` is a function of those five values and of nothing else" (R13): whatever went before, two evaluations of one
command give one `y`. -/
def Obligations.OutputDependsOnTheCommandAlone : Prop :=
  ∀ s s' t : State, s.present.inputs = s'.present.inputs → step s = .next t →
    ∃ t', step s' = .next t' ∧ t'.y = t.y

/-- The step gives what the multiplexer over the five modules gives (R2, R13, R23). Where the multiplexer gives nothing, under a reserved
code, the command is refused (R49); that the step does it, under the name `reservedOperation`, is the model's reading (log 5). -/
def Obligations.StepRefinesTheModuleMultiplexer : Prop :=
  ∀ s : State,
    (∀ v, coreOutput s.present.inputs = some v → ∃ t, step s = .next t ∧ t.y = v) ∧
    (coreOutput s.present.inputs = none → ∃ op, step s = .refused (.reservedOperation op))

/-- Any operation may follow any other, immediately, and the one before it changes nothing; the same command twice gives the same `y`
twice (R116). -/
def Obligations.AnyOperationMayFollowAnyOther : Prop :=
  ∀ (s t : State) (c d : Command) (rest : List Command),
    s.pending = c :: d :: rest → step s = .next t → d.wellFormed = true →
    ∃ u w, step t = .next u ∧ step { s with pending := d :: rest } = .next w ∧ u.y = w.y ∧ (c = d → u.y = t.y)

/-- A stream of defined commands runs to its end from any state, and the record grows by exactly its commands, each with its own value
of CORE, in order (R13, R14, R116; log 3). -/
def Obligations.StreamIsAnsweredCommandByCommand : Prop :=
  ∀ (cs rest : List Command) (s : State), AllDefined cs → s.pending = cs ++ rest →
    ∃ (t : State) (ys : List Word32), Sys2Proof.core.run cs.length s = .next t ∧ t.pending = rest ∧
      List.Forall₂ (fun c y => coreOutput c = some y) cs ys ∧ t.transcript = s.transcript ++ cs.zip ys

/-- Every evaluation keeps the output settled and the record right (R13, R14, R32, R113). -/
def Obligations.StepKeepsRunInvariant : Prop :=
  ∀ s t : State, RunInvariant s → step s = .next t → RunInvariant t

/-- The state after power-up has a settled output and a right record (R113); its inputs are the model's choice (log 1). -/
def Obligations.ResetHasRunInvariant : Prop :=
  RunInvariant State.reset

/-- The first evaluation after power-up obeys the same rules as every other (R114): the host's first command is answered as CORE
answers it, with nothing initialised before it. That it comes from `pending`, which is then empty, and stands alone in `transcript` is
the model's choice (log 3). -/
def Obligations.FirstCommandAfterResetIsAnswered : Prop :=
  ∀ (c : Command) (v : Word32), coreOutput c = some v →
    step { State.reset with pending := [c] } = .next { inputs := c, y := v, pending := [], transcript := [(c, v)] }

/-! ## LOOKUP (40_descriptor_rom.md) -/

/-- The four words of the ROM, and the invariants of each: `1 + exponentBits + mantissaBits == totalBits` and
`bias == 2^(exponentBits-1) - 1` (R21, R55, R56). -/
def Obligations.LookupReadsTheDescriptorRom : Prop :=
  ∀ (fmt : RomIndex) (s : State), ∃ w : Word32, exec (.lookup fmt) s = .next { s with y := w } ∧
    (fmt = 0 → w = 0x2008177F) ∧ (fmt = 1 → w = 0x10050A0F) ∧ (fmt = 2 → w = 0x1008077F) ∧ (fmt = 3 → w = 0x08040307) ∧
    1 + (w.extractLsb' 16 8).toNat + (w.extractLsb' 8 8).toNat = (w.extractLsb' 24 8).toNat ∧
    (w.extractLsb' 0 8).toNat = 2 ^ ((w.extractLsb' 16 8).toNat - 1) - 1

/-! ## ENC32 and DEC32 (41_bitcast32.md) -/

/-- Both bit-casts return their operand unchanged: `y <- in.a[31:0]` for `op = 0x0` and `op = 0x1`, whatever the other bits hold, so
each undoes the other on every pattern (R58, R59, R60). -/
def Obligations.BitcastsAreExactInverses : Prop :=
  (∀ (p : Word32) (s : State),
    (∃ t, exec (.enc32 p) s = .next t ∧ t = { s with y := p } ∧ exec (.dec32 t.y) t = .next { t with y := p }) ∧
    (∃ t, exec (.dec32 p) s = .next t ∧ t = { s with y := p } ∧ exec (.enc32 t.y) t = .next { t with y := p })) ∧
  (∀ (c : Command) (rest : List Command) (s : State), s.pending = c :: rest → c.op = 0x0 ∨ c.op = 0x1 →
    ∃ t, step s = .next t ∧ t.y = c.a.extractLsb' 0 32)

/-! ## ENC16 and DEC16 (42_binary16.md) -/

/-- Every binary32 NaN becomes the canonical quiet pattern with its own sign (R64). -/
def Obligations.Enc16MakesNaNCanonical : Prop :=
  ∀ (f : Word32) (s : State), isNaN .binary32 f = true →
    exec (.enc16 f) s = .next { s with y := if signOf .binary32 f then 0xFE00 else 0x7E00 }

/-- The mathematical form of ENC16 (R63): from 65520 on, and for an infinity, the infinity; below it the nearest binary16 value, ties
to even; the sign always the input's. -/
def Obligations.Enc16RoundsToNearestEven : Prop :=
  ∀ (f : Word32) (s : State), isNaN .binary32 f = false →
    ∃ r : Word16, exec (.enc16 f) s = .next { s with y := r.setWidth 32 } ∧
      signOf .binary16 r = signOf .binary32 f ∧
      (isInfinity .binary32 f = true ∨ 65520 ≤ |val .binary32 f| → r.toNat % 2 ^ 15 = 0x7C00) ∧
      (isFinite .binary32 f = true ∧ |val .binary32 f| < 65520 → NearestEven .binary16 (val .binary32 f) r)

/-- Infinities, and finite magnitudes of 65520 or more, give the infinity of their sign; just below, the largest finite
value (R65). -/
def Obligations.Enc16SaturatesAtTheMidpoint : Prop :=
  ∀ (f : Word32) (s : State),
    (0x477FF000 ≤ f.toNat % 2 ^ 31 ∧ f.toNat % 2 ^ 31 ≤ 0x7F800000 →
      exec (.enc16 f) s = .next { s with y := if signOf .binary32 f then 0xFC00 else 0x7C00 }) ∧
    (0x477FE000 ≤ f.toNat % 2 ^ 31 ∧ f.toNat % 2 ^ 31 < 0x477FF000 →
      exec (.enc16 f) s = .next { s with y := if signOf .binary32 f then 0xFBFF else 0x7BFF })

/-- Zeros, binary32 subnormals, and every magnitude up to 2^-25 give a zero of the input's sign; the next pattern gives the least
subnormal (R66). -/
def Obligations.Enc16TinyInputsBecomeSignedZero : Prop :=
  ∀ (f : Word32) (s : State),
    (isFinite .binary32 f = true ∧ |val .binary32 f| ≤ 1 / 2 ^ 25 →
      exec (.enc16 f) s = .next { s with y := if signOf .binary32 f then 0x8000 else 0x0000 }) ∧
    (f = 0x33000001 → exec (.enc16 f) s = .next { s with y := 0x0001 })

/-- DEC16 of a finite pattern is the binary32 pattern of the same value and sign: nothing is rounded (R70). -/
def Obligations.Dec16IsExact : Prop :=
  ∀ (h : Word16) (s : State), isFinite .binary16 h = true →
    ∃ r : Word32, exec (.dec16 h) s = .next { s with y := r } ∧ isFinite .binary32 r = true ∧
      val .binary32 r = val .binary16 h ∧ signOf .binary32 r = signOf .binary16 h

/-- A binary16 subnormal becomes a binary32 normal with exponent field 103 + k and its bits below the leading one at the top of the
mantissa (R71). -/
def Obligations.Dec16NormalisesSubnormals : Prop :=
  ∀ (h : Word16) (s : State) (k : Nat), isSubnormal .binary16 h = true →
    2 ^ k ≤ mantissaOf .binary16 h → mantissaOf .binary16 h < 2 ^ (k + 1) →
    val .binary16 (h &&& 0x7FFF#16) = mantissaOf .binary16 h / 2 ^ 24 ∧
    ∃ r : Word32, exec (.dec16 h) s = .next { s with y := r } ∧ classify .binary32 r = .normal ∧
      signOf .binary32 r = signOf .binary16 h ∧ exponentOf .binary32 r = 103 + k ∧
      mantissaOf .binary32 r = (mantissaOf .binary16 h - 2 ^ k) * 2 ^ (23 - k)

/-- Infinity gives infinity and NaN gives NaN, with the input's sign (R72); that the payload is kept and the quiet bit set is the
spec's decision D12, which the model takes (log 4). -/
def Obligations.Dec16KeepsInfinityAndNaN : Prop :=
  ∀ (h : Word16) (s : State),
    (isInfinity .binary16 h = true →
      exec (.dec16 h) s = .next { s with y := if signOf .binary16 h then 0xFF800000 else 0x7F800000 }) ∧
    (isNaN .binary16 h = true → ∃ r : Word32, exec (.dec16 h) s = .next { s with y := r } ∧
      isNaN .binary32 r = true ∧ signOf .binary32 r = signOf .binary16 h ∧
      r.getLsbD 22 = true ∧ ∀ j < 9, r.getLsbD (13 + j) = h.getLsbD j)

/-- The round trip through binary16 (R74): from binary16 and back for every pattern but the NaNs, which come back canonical; from
binary32 and back for every value binary16 has. -/
def Obligations.Binary16RoundTrip : Prop :=
  (∀ (h : Word16) (s : State), ∃ t, exec (.dec16 h) s = .next t ∧
    (isNaN .binary16 h = false → exec (.enc16 t.y) t = .next { t with y := h.setWidth 32 }) ∧
    (isNaN .binary16 h = true → exec (.enc16 t.y) t = .next { t with y := ((h &&& 0x8000#16) ||| 0x7E00#16).setWidth 32 })) ∧
  (∀ (f : Word32) (s : State),
    (isInfinity .binary32 f = true ∨
      (isFinite .binary32 f = true ∧ ∃ h : Word16, isFinite .binary16 h = true ∧ val .binary16 h = val .binary32 f)) →
    ∃ t, exec (.enc16 f) s = .next t ∧ exec (.dec16 (t.y.extractLsb' 0 16)) t = .next { t with y := f })

/-! ## ENCBF16 and DECBF16 (43_bfloat16.md) -/

/-- A NaN keeps its sign, exponent and top seven mantissa bits but for the quiet bit, which is set, so that it stays a NaN (R76). -/
def Obligations.EncBf16QuietsNaN : Prop :=
  ∀ (f : Word32) (s : State), isNaN .binary32 f = true →
    ∃ r : Word16, exec (.encbf16 f) s = .next { s with y := r.setWidth 32 } ∧ isNaN .bfloat16 r = true ∧
      r.getLsbD 6 = true ∧ ∀ j < 16, j ≠ 6 → r.getLsbD j = f.getLsbD (16 + j)

/-- Every input with exponent field 0 gives a zero of its own sign; the least normal is not flushed (R77). -/
def Obligations.EncBf16FlushesSubnormals : Prop :=
  ∀ (f : Word32) (s : State),
    (exponentOf .binary32 f = 0 →
      exec (.encbf16 f) s = .next { s with y := if signOf .binary32 f then 0x8000 else 0x0000 }) ∧
    (f = 0x00800000 → exec (.encbf16 f) s = .next { s with y := 0x0080 })

/-- A binary32 normal number is rounded to the nearest bfloat16 value, ties to even, to infinity from the midpoint above the largest
finite value on, and keeps its sign (R75, R78, R79). -/
def Obligations.EncBf16RoundsToNearestEven : Prop :=
  ∀ (f : Word32) (s : State), classify .binary32 f = .normal →
    ∃ r : Word16, exec (.encbf16 f) s = .next { s with y := r.setWidth 32 } ∧
      signOf .bfloat16 r = signOf .binary32 f ∧ RoundsTo .bfloat16 (val .binary32 f) r

/-- The rounding as one addition: `add32(bits, 0x7FFF + t[0]) >> 16` (R75). -/
def Obligations.EncBf16RoundsByAddingABias : Prop :=
  ∀ (f : Word32) (s : State), isNaN .binary32 f = false → exponentOf .binary32 f ≠ 0 →
    exec (.encbf16 f) s = .next { s with y := (f + (0x7FFF#32 + (f >>> 16 &&& 1#32))) >>> 16 }

/-- An infinity passes unchanged; a finite value that rounds up past the largest finite one becomes infinity by the carry; just below, it
is the largest finite; the addition never wraps into the sign (R79). -/
def Obligations.EncBf16OverflowsByTheCarry : Prop :=
  ∀ (f : Word32) (s : State), isNaN .binary32 f = false → exponentOf .binary32 f ≠ 0 →
    ∃ r : Word16, exec (.encbf16 f) s = .next { s with y := r.setWidth 32 } ∧
      signOf .bfloat16 r = signOf .binary32 f ∧
      (isInfinity .binary32 f = true → r = f.extractLsb' 16 16) ∧
      (0x7F7F8000 ≤ f.toNat % 2 ^ 31 → r.toNat % 2 ^ 15 = 0x7F80) ∧
      (0x7F7F0000 ≤ f.toNat % 2 ^ 31 ∧ f.toNat % 2 ^ 31 < 0x7F7F8000 → r.toNat % 2 ^ 15 = 0x7F7F)

/-- A normal pattern is widened exactly, an infinity stays one, and a zero or subnormal pattern gives a zero of its sign (R80, R81). -/
def Obligations.DecBf16WidensNormalsAndFlushesSubnormals : Prop :=
  ∀ (p : Word16) (s : State),
    (classify .bfloat16 p = .normal → ∃ r : Word32, exec (.decbf16 p) s = .next { s with y := r } ∧
      val .binary32 r = val .bfloat16 p ∧ classify .binary32 r = .normal) ∧
    (classify .bfloat16 p = .infinity →
      exec (.decbf16 p) s = .next { s with y := if signOf .bfloat16 p then 0xFF800000 else 0x7F800000 }) ∧
    (classify .bfloat16 p = .zero ∨ classify .bfloat16 p = .subnormal →
      exec (.decbf16 p) s = .next { s with y := if signOf .bfloat16 p then 0x80000000 else 0x00000000 })

/-- A NaN pattern gives a NaN with its sign (R80, R81); that the payload is kept and the quiet bit set is the spec's decision
D12, which the model takes (log 4). -/
def Obligations.DecBf16KeepsNaN : Prop :=
  ∀ (p : Word16) (s : State), isNaN .bfloat16 p = true →
    ∃ r : Word32, exec (.decbf16 p) s = .next { s with y := r } ∧ isNaN .binary32 r = true ∧
      signOf .binary32 r = signOf .bfloat16 p ∧ r.getLsbD 22 = true ∧
      (∀ j < 6, r.getLsbD (16 + j) = p.getLsbD j) ∧ r.toNat % 2 ^ 16 = 0

/-- The round trip through bfloat16, with its exceptions (R82, C2): subnormals come back as a signed zero, and NaNs with the quiet bit
clear come back with it set. -/
def Obligations.Bfloat16RoundTripWithItsExceptions : Prop :=
  (∀ (p : Word16) (s : State), ∃ t, exec (.decbf16 p) s = .next t ∧
    (isSubnormal .bfloat16 p = false ∧ (isNaN .bfloat16 p = true → p.getLsbD 6 = true) →
      exec (.encbf16 t.y) t = .next { t with y := p.setWidth 32 }) ∧
    (isSubnormal .bfloat16 p = true →
      exec (.encbf16 t.y) t = .next { t with y := (p &&& 0x8000#16).setWidth 32 }) ∧
    (isNaN .bfloat16 p = true ∧ p.getLsbD 6 = false →
      exec (.encbf16 t.y) t = .next { t with y := (p ||| 0x0040#16).setWidth 32 })) ∧
  (∀ (f : Word32) (s : State), f.toNat % 2 ^ 16 = 0 → isNaN .binary32 f = false → isSubnormal .binary32 f = false →
    ∃ t, exec (.encbf16 f) s = .next t ∧ exec (.decbf16 (t.y.extractLsb' 0 16)) t = .next { t with y := f })

/-! ## ENC8 and DEC8 (44_float8_e4m3.md) -/

/-- A finite magnitude below 256 is truncated to the micro-float value next toward zero, with its sign (R12, R83, R84, R87, R91). -/
def Obligations.Enc8TruncatesTowardZero : Prop :=
  ∀ (f : Word32) (s : State), isFinite .binary32 f = true → |val .binary32 f| < 256 →
    ∃ r : Word8, exec (.enc8 f) s = .next { s with y := r.setWidth 32 } ∧
      signOf .e4m3 r = signOf .binary32 f ∧ TowardZero .e4m3 (val .binary32 f) r

/-- Every exponent field from 135 on, which is every magnitude of 256 or more, every infinity and every NaN, gives the infinity of its
sign; no result has exponent field 15 and a nonzero mantissa (R86). -/
def Obligations.Enc8SaturatesToInfinity : Prop :=
  ∀ (f : Word32) (s : State),
    (135 ≤ exponentOf .binary32 f →
      exec (.enc8 f) s = .next { s with y := if signOf .binary32 f then 0xF8 else 0x78 }) ∧
    (isFinite .binary32 f = true → (135 ≤ exponentOf .binary32 f ↔ 256 ≤ |val .binary32 f|)) ∧
    (∃ r : Word8, exec (.enc8 f) s = .next { s with y := r.setWidth 32 } ∧
      (exponentOf .e4m3 r = 15 → mantissaOf .e4m3 r = 0))

/-- The subnormal results of ENC8, shift by shift: with the implicit one made explicit, the bits shifted out are dropped, and the sign
is kept on a zero (R84). -/
def Obligations.Enc8SubnormalResults : Prop :=
  ∀ (f : Word32) (s : State), exponentOf .binary32 f ≤ 120 →
    ∃ r : Word8, exec (.enc8 f) s = .next { s with y := r.setWidth 32 } ∧
      signOf .e4m3 r = signOf .binary32 f ∧ exponentOf .e4m3 r = 0 ∧
      (exponentOf .binary32 f = 120 → mantissaOf .e4m3 r = 4 + mantissaOf .binary32 f / 2 ^ 21) ∧
      (exponentOf .binary32 f = 119 → mantissaOf .e4m3 r = 2 + mantissaOf .binary32 f / 2 ^ 22) ∧
      (exponentOf .binary32 f = 118 → mantissaOf .e4m3 r = 1) ∧
      (exponentOf .binary32 f ≤ 117 → mantissaOf .e4m3 r = 0)

/-- DEC8 is exact below exponent field 15, and exponent field 15 is an infinity whatever the mantissa (R88, R90). -/
def Obligations.Dec8IsExactAndField15IsInfinity : Prop :=
  ∀ (p : Word8) (s : State), ∃ r : Word32, exec (.dec8 p) s = .next { s with y := r } ∧
    signOf .binary32 r = signOf .e4m3 p ∧
    (exponentOf .e4m3 p ≠ 15 → isFinite .binary32 r = true ∧ val .binary32 r = val .e4m3 p) ∧
    (exponentOf .e4m3 p = 15 → r.toNat % 2 ^ 31 = 0x7F800000)

/-- A micro-float zero gives a zero of its sign, and a subnormal a binary32 normal with exponent field 118 + k (R89). -/
def Obligations.Dec8ZerosAndSubnormals : Prop :=
  ∀ (p : Word8) (s : State), exponentOf .e4m3 p = 0 →
    ∃ r : Word32, exec (.dec8 p) s = .next { s with y := r } ∧ signOf .binary32 r = signOf .e4m3 p ∧
      (mantissaOf .e4m3 p = 0 → isZero .binary32 r = true) ∧
      (∀ k, 2 ^ k ≤ mantissaOf .e4m3 p → mantissaOf .e4m3 p < 2 ^ (k + 1) →
        classify .binary32 r = .normal ∧ exponentOf .binary32 r = 118 + k ∧
        mantissaOf .binary32 r = (mantissaOf .e4m3 p - 2 ^ k) * 2 ^ (23 - k))

/-- The round trip through the micro-float (R91): from E4M3 and back but for the non-canonical infinities, which come back canonical;
from binary32 and back for every value the format has. -/
def Obligations.MicroFloatRoundTrip : Prop :=
  (∀ (p : Word8) (s : State), ∃ t, exec (.dec8 p) s = .next t ∧
    (exponentOf .e4m3 p ≠ 15 ∨ mantissaOf .e4m3 p = 0 → exec (.enc8 t.y) t = .next { t with y := p.setWidth 32 }) ∧
    (exponentOf .e4m3 p = 15 → exec (.enc8 t.y) t = .next { t with y := ((p &&& 0x80#8) ||| 0x78#8).setWidth 32 })) ∧
  (∀ (f : Word32) (s : State),
    (isInfinity .binary32 f = true ∨
      (isFinite .binary32 f = true ∧ ∃ p : Word8, isFinite .e4m3 p = true ∧ val .e4m3 p = val .binary32 f)) →
    ∃ t, exec (.enc8 f) s = .next t ∧ exec (.dec8 (t.y.extractLsb' 0 8)) t = .next { t with y := f })

/-- ENC8 is monotonic: a value not above another is not above it after the round trip (R91). -/
def Obligations.Enc8IsMonotonic : Prop :=
  ∀ (f g : Word32) (s : State), ExtendedLe .binary32 f g →
    ∃ t u t' u', exec (.enc8 f) s = .next t ∧ exec (.enc8 g) s = .next u ∧
      exec (.dec8 (t.y.extractLsb' 0 8)) t = .next t' ∧ exec (.dec8 (u.y.extractLsb' 0 8)) u = .next u' ∧
      ExtendedLe .binary32 t'.y u'.y

/-- Where the class of a pattern and the class of what its decoder returns differ: bfloat16 subnormals become zeros, E4M3 patterns of
class NaN become infinities, and binary16 and E4M3 subnormals become normals (R31). -/
def Obligations.DecodersChangeClassOnlyAsStated : Prop :=
  ∀ (h : Word16) (p : Word8) (s : State), ∃ x y z : Word32,
    exec (.decbf16 h) s = .next { s with y := x } ∧ exec (.dec8 p) s = .next { s with y := y } ∧
    exec (.dec16 h) s = .next { s with y := z } ∧
    classify .binary32 x = (if classify .bfloat16 h = .subnormal then .zero else classify .bfloat16 h) ∧
    classify .binary32 y = (match classify .e4m3 p with | .nan => .infinity | .subnormal => .normal | k => k) ∧
    classify .binary32 z = (if classify .binary16 h = .subnormal then .normal else classify .binary16 h)

/-! ## ISCLOSE (45_comparator.md) -/

/-- Exponent field 0x7FF in either number gives 0, whatever the other operands are (R94). -/
def Obligations.IscloseRejectsInfinityAndNaN : Prop :=
  ∀ (a b rel absTol : Word64) (s : State), exponentOf .binary64 a = 0x7FF ∨ exponentOf .binary64 b = 0x7FF →
    exec (.isclose a b rel absTol) s = .next { s with y := 0 }

/-- Two finite operands of equal value give 1 without looking at the tolerances; the two zeros are equal (R95). -/
def Obligations.IscloseAcceptsEqualValues : Prop :=
  ∀ (a b rel absTol : Word64) (s : State), isFinite .binary64 a = true → isFinite .binary64 b = true →
    val .binary64 a = val .binary64 b → exec (.isclose a b rel absTol) s = .next { s with y := 1 }

/-- The subtraction is the exact difference rounded once to binary64, nearest even (R93). -/
def Obligations.FsubRoundsTheExactDifference : Prop :=
  ∀ x y : Word64, isFinite .binary64 x = true → isFinite .binary64 y = true → val .binary64 x ≠ val .binary64 y →
    RoundsTo .binary64 (val .binary64 x - val .binary64 y) (fsub x y)

/-- The multiplication by a finite positive number is the exact product rounded once to binary64, nearest even, with the first
operand's sign; an infinite first operand gives itself and a NaN gives a NaN (R93). R93 gives the sign of the result for a nonzero
first operand; that the product of a zero is that zero, with its sign, is the model's choice (log 10). -/
def Obligations.FmulRoundsTheExactProduct : Prop :=
  ∀ x y : Word64, isFinite .binary64 y = true → 0 < val .binary64 y →
    (isFinite .binary64 x = true →
      RoundsTo .binary64 (val .binary64 x * val .binary64 y) (fmul x y) ∧ signOf .binary64 (fmul x y) = signOf .binary64 x) ∧
    (isInfinity .binary64 x = true → fmul x y = x) ∧
    (isNaN .binary64 x = true → isNaN .binary64 (fmul x y) = true)

/-- The comparisons are those of extended numbers, false on a NaN, the two zeros equal (R93). -/
def Obligations.ComparisonsAreOfExtendedNumbers : Prop :=
  ∀ x y : Word64, (fle x y = true ↔ ExtendedLe .binary64 x y) ∧
    (isFinite .binary64 x = true → isFinite .binary64 y = true → (feq x y = true ↔ val .binary64 x = val .binary64 y))

/-- ISCLOSE in mathematics (R92, R93): for two finite numbers of different value, a finite relative and a non-NaN absolute tolerance,
the result is 1 exactly when the rounded distance is at most the rounded product of the relative tolerance and the larger magnitude, or at
most the absolute tolerance. -/
def Obligations.IscloseComparesDistanceWithTolerance : Prop :=
  ∀ (a b rel absTol d t : Word64) (s : State),
    isFinite .binary64 a = true → isFinite .binary64 b = true → val .binary64 a ≠ val .binary64 b →
    isFinite .binary64 rel = true → isNaN .binary64 absTol = false →
    RoundsTo .binary64 |val .binary64 a - val .binary64 b| d →
    RoundsTo .binary64 (val .binary64 rel * max |val .binary64 a| |val .binary64 b|) t →
    ∃ y : Word32, exec (.isclose a b rel absTol) s = .next { s with y := y } ∧ (y = 0 ∨ y = 1) ∧
      (y = 1 ↔ ExtendedLe .binary64 d t ∨ ExtendedLe .binary64 d absTol)

/-- Swapping the two numbers changes nothing (R96). -/
def Obligations.IscloseIsSymmetric : Prop :=
  ∀ (a b rel absTol : Word64) (s : State), exec (.isclose a b rel absTol) s = exec (.isclose b a rel absTol) s

/-- Both tolerances zero mean exact equality only (R96). -/
def Obligations.IscloseZeroTolerancesMeanEquality : Prop :=
  ∀ (a b rel absTol : Word64) (s : State), isFinite .binary64 a = true → isFinite .binary64 b = true →
    isZero .binary64 rel = true → isZero .binary64 absTol = true →
    ∃ y : Word32, exec (.isclose a b rel absTol) s = .next { s with y := y } ∧ (y = 0 ∨ y = 1) ∧
      (y = 1 ↔ val .binary64 a = val .binary64 b)

/-- A positive infinite relative tolerance makes any two finite numbers close, whatever the absolute one is (R97). -/
def Obligations.IscloseInfiniteRelativeToleranceAcceptsAllFinite : Prop :=
  ∀ (a b absTol : Word64) (s : State), isFinite .binary64 a = true → isFinite .binary64 b = true →
    exec (.isclose a b 0x7FF0000000000000 absTol) s = .next { s with y := 1 }

/-- The difference of two finite numbers may overflow; then only an infinite tolerance accepts it, and it does (R97). -/
def Obligations.IscloseOverflowedDistanceNeedsInfiniteTolerance : Prop :=
  ∀ (a b rel absTol : Word64) (s : State), isFinite .binary64 a = true → isFinite .binary64 b = true →
    overflowThreshold .binary64 ≤ |val .binary64 a - val .binary64 b| →
    ∃ y : Word32, exec (.isclose a b rel absTol) s = .next { s with y := y } ∧ (y = 0 ∨ y = 1) ∧
      (y = 1 ↔ tolerance a b rel absTol = 0x7FF0000000000000)

/-- With both tolerances negative the tolerance test always fails, while equal numbers still give 1 (R98). -/
def Obligations.IscloseNegativeTolerancesAcceptEqualityOnly : Prop :=
  ∀ (a b rel absTol : Word64) (s : State), isFinite .binary64 a = true → isFinite .binary64 b = true →
    isNaN .binary64 rel = false → signOf .binary64 rel = true → isZero .binary64 rel = false →
    isNaN .binary64 absTol = false → signOf .binary64 absTol = true → isZero .binary64 absTol = false →
    ∃ y : Word32, exec (.isclose a b rel absTol) s = .next { s with y := y } ∧ (y = 0 ∨ y = 1) ∧
      (y = 1 ↔ val .binary64 a = val .binary64 b)

/-- A NaN tolerance is ignored in favour of the other; with both NaN only equal numbers are close (R98). -/
def Obligations.IscloseIgnoresNaNTolerance : Prop :=
  ∀ (a b rel absTol : Word64) (s : State), isFinite .binary64 a = true → isFinite .binary64 b = true →
    val .binary64 a ≠ val .binary64 b →
    (isNaN .binary64 rel = true → ∃ y : Word32, exec (.isclose a b rel absTol) s = .next { s with y := y } ∧
      (y = 0 ∨ y = 1) ∧ (y = 1 ↔ ExtendedLe .binary64 (fabs (fsub a b)) absTol)) ∧
    (isNaN .binary64 absTol = true → ∃ y : Word32, exec (.isclose a b rel absTol) s = .next { s with y := y } ∧
      (y = 0 ∨ y = 1) ∧ (y = 1 ↔ ExtendedLe .binary64 (fabs (fsub a b)) (fmul rel (larger a b))))

/-- The host's widening is exact: the same value and sign, infinity to infinity, NaN to NaN (R100); it is no operation of the block
(log 11). -/
def Obligations.WideningIsExact : Prop :=
  ∀ x : Word32, signOf .binary64 (widen64 x) = signOf .binary32 x ∧
    (isFinite .binary32 x = true → isFinite .binary64 (widen64 x) = true ∧ val .binary64 (widen64 x) = val .binary32 x) ∧
    (isInfinity .binary32 x = true → isInfinity .binary64 (widen64 x) = true) ∧
    (isNaN .binary32 x = true → isNaN .binary64 (widen64 x) = true)

/-! ## ISCLOSE with a negative tolerance (45_comparator.md R98) -/

/-- A negative tolerance, `-infinity` among them, leaves the decision to the other one (R92, R98: "With one tolerance negative the other
decides"), which may be of either sign and infinite; a NaN tolerance is the business of `IscloseIgnoresNaNTolerance`. That the block
computes such commands is R98's decision D18; that the model runs them where U3 also lets it refuse is log 9. -/
def Obligations.IscloseLeavesANegativeToleranceToTheOther : Prop :=
  ∀ (a b rel absTol d : Word64) (s : State),
    isFinite .binary64 a = true → isFinite .binary64 b = true → val .binary64 a ≠ val .binary64 b →
    isNaN .binary64 rel = false → isNaN .binary64 absTol = false →
    RoundsTo .binary64 |val .binary64 a - val .binary64 b| d →
    ∃ y : Word32, exec (.isclose a b rel absTol) s = .next { s with y := y } ∧ (y = 0 ∨ y = 1) ∧
      (signOf .binary64 rel = true ∧ isZero .binary64 rel = false → (y = 1 ↔ ExtendedLe .binary64 d absTol)) ∧
      (signOf .binary64 absTol = true ∧ isZero .binary64 absTol = false →
        (isInfinity .binary64 rel = true → (y = 1 ↔ signOf .binary64 rel = false)) ∧
        (isFinite .binary64 rel = true →
          ∀ t : Word64, RoundsTo .binary64 (val .binary64 rel * max |val .binary64 a| |val .binary64 b|) t →
            (y = 1 ↔ ExtendedLe .binary64 d t)))
end

