-- ==== Sys2Proof/Laws/Decode.lean ====
section
/-! SUPPORT. Commands and their 260-bit vectors, and what the decoder can answer (30_encoding.md R45 to R49). -/

namespace Sys2Proof

/-- The vector of a command stands for that command (R45). -/
theorem ofBits_toBits (c : Command) : Command.ofBits c.toBits = c := by
  cases c with
  | mk op a b rel absTol =>
    simp only [Command.ofBits, Command.toBits, Command.mk.injEq]
    refine ⟨?_, ?_, ?_, ?_, ?_⟩ <;> ext i hi <;>
      rw [BitVec.getElem_extractLsb', ← BitVec.getLsbD_eq_getElem]
    all_goals simp only [BitVec.getLsbD_append]
    all_goals
      repeat' split
      all_goals first
        | (exfalso; omega)
        | exact congrArg _ (by omega)

/-- The decoder either gives an operation, for a defined code, or names the reserved one. -/
theorem decode_cases (c : Command) :
    (c.op.toNat < 10 ∧ ∃ i, decode c = .ok i) ∨ (10 ≤ c.op.toNat ∧ decode c = .error (.reservedOp c.op)) := by
  have := c.op.isLt
  unfold decode
  split
  case h_11 => exact Or.inr ⟨by rw [← Nat.not_lt]; intro hlt; interval_cases c.op.toNat <;> simp_all, rfl⟩
  all_goals exact Or.inl ⟨by omega, _, rfl⟩

/-- No two rows of the operation table accept one code (R46). -/
theorem opTable_disjoint :
    opTable.Pairwise fun r r' => ∀ op : OpCode, ¬ (op &&& r.mask = r.code ∧ op &&& r'.mask = r'.code) := by
  decide

end Sys2Proof
end

