-- ==== Sys2Proof/Laws/Ops.lean ====
section
/-! SUPPORT. What the shared operations can do: rounding to nearest (00_scope.md R12), the ROM words (20_memory.md R35), the lanes and the
sign (30_encoding.md R48). -/

namespace Sys2Proof.Machine

theorem roundShift_zero (n : Nat) : roundShift n 0 = n := by
  simp [roundShift, Nat.mod_one]

theorem roundShift_bounds (n sh : Nat) :
    2 * n ≤ (2 * roundShift n sh + 1) * 2 ^ sh ∧ 2 * roundShift n sh * 2 ^ sh ≤ 2 * n + 2 ^ sh := by
  rcases Nat.eq_zero_or_pos sh with rfl | hsh
  · rw [roundShift_zero]; omega
  · obtain ⟨u, rfl⟩ : ∃ u, sh = u + 1 := ⟨sh - 1, by omega⟩
    have hd := Nat.div_add_mod n (2 ^ (u + 1))
    have hm := Nat.mod_lt n (Nat.two_pow_pos (u + 1))
    simp only [roundShift, Nat.add_sub_cancel]
    rw [pow_succ] at *
    generalize 2 ^ u = h at *
    generalize n / (h * 2) = q at *
    generalize n % (h * 2) = r at *
    split
    · have : h ≤ r := by omega
      constructor <;> nlinarith
    · have : r ≤ h := by omega
      constructor <;> nlinarith

theorem roundShift_tie (n sh : Nat)
    (h : 2 * n = (2 * roundShift n sh + 1) * 2 ^ sh ∨ 2 * roundShift n sh * 2 ^ sh = 2 * n + 2 ^ sh) :
    roundShift n sh % 2 = 0 := by
  rcases Nat.eq_zero_or_pos sh with rfl | hsh
  · rw [roundShift_zero] at h; omega
  · obtain ⟨u, rfl⟩ : ∃ u, sh = u + 1 := ⟨sh - 1, by omega⟩
    have hd := Nat.div_add_mod n (2 ^ (u + 1))
    have hm := Nat.mod_lt n (Nat.two_pow_pos (u + 1))
    have hu := Nat.two_pow_pos u
    simp only [roundShift, Nat.add_sub_cancel] at *
    rw [pow_succ] at *
    generalize 2 ^ u = g at *
    generalize n / (g * 2) = q at *
    generalize n % (g * 2) = r at *
    split at h <;> rename_i hc
    · rw [if_pos hc]
      rcases hc with hc | ⟨hc, hq⟩
      · rcases h with h | h <;> nlinarith
      · omega
    · rw [if_neg hc]
      rcases h with h | h
      · have : r = g := by nlinarith
        omega
      · nlinarith


/-- Any multiple of the step is at least as far from `n` as the rounded one, and strictly farther unless it is the same or the
rounded one is even (R12). -/
theorem roundShift_nearest (n sh j : Nat) :
    |(n : Int) - roundShift n sh * 2 ^ sh| ≤ |(n : Int) - j * 2 ^ sh| ∧
    (|(n : Int) - roundShift n sh * 2 ^ sh| = |(n : Int) - j * 2 ^ sh| → j = roundShift n sh ∨ roundShift n sh % 2 = 0) := by
  obtain ⟨h1, h2⟩ := roundShift_bounds n sh
  have ht := roundShift_tie n sh
  have hp : (0 : Int) < 2 ^ sh := by positivity
  zify at h1 h2 ht
  generalize hq : roundShift n sh = q at *
  generalize (2 : Int) ^ sh = p at *
  rcases Nat.lt_trichotomy j q with hj | hj | hj
  · have h3 : (j : Int) * p + p ≤ q * p := by
      have : (j : Int) + 1 ≤ q := by exact_mod_cast hj
      nlinarith
    constructor
    · rw [abs_le]; constructor <;> cases abs_cases ((n : Int) - j * p) <;> nlinarith
    · intro he
      right
      have : 2 * (q : Int) * p = 2 * n + p := by
        cases abs_cases ((n : Int) - j * p) <;> cases abs_cases ((n : Int) - q * p) <;> nlinarith
      omega
  · subst hj; simp
  · have h3 : (q : Int) * p + p ≤ j * p := by
      have : (q : Int) + 1 ≤ j := by exact_mod_cast hj
      nlinarith
    constructor
    · rw [abs_le]; constructor <;> cases abs_cases ((n : Int) - j * p) <;> nlinarith
    · intro he
      right
      have : 2 * (n : Int) = (2 * q + 1) * p := by
        cases abs_cases ((n : Int) - j * p) <;> cases abs_cases ((n : Int) - q * p) <;> nlinarith
      omega

/-- The magnitude, in units of the least subnormal, of the magnitude pattern `x` of a format with `M` mantissa bits (R29), with no
upper end to the exponent (R12). -/
def patternValue (M x : Nat) : Nat :=
  if x / 2 ^ M = 0 then x % 2 ^ M else (2 ^ M + x % 2 ^ M) * 2 ^ (x / 2 ^ M - 1)

/-- The pattern with the exponent counted by `d` and the significand `q` stands for `q * 2^d`, the carry case included. -/
theorem patternValue_of_significand (M d q : Nat) (hq : q ≤ 2 ^ (M + 1)) (hd : 0 < d → 2 ^ M ≤ q) :
    patternValue M (d * 2 ^ M + q) = q * 2 ^ d := by
  have hM := Nat.two_pow_pos M
  rw [pow_succ] at hq
  rcases Nat.lt_or_ge q (2 ^ M) with h | h
  · obtain rfl : d = 0 := by by_contra hne; have := hd (by omega); omega
    simp [patternValue, Nat.div_eq_of_lt h, Nat.mod_eq_of_lt h]
  · rcases Nat.lt_or_ge q (2 ^ M * 2) with h' | h'
    · have e1 : d * 2 ^ M + q = (d + 1) * 2 ^ M + (q - 2 ^ M) := by rw [Nat.add_mul]; omega
      have e2 : q - 2 ^ M < 2 ^ M := by omega
      have e3 : ((d + 1) * 2 ^ M + (q - 2 ^ M)) / 2 ^ M = d + 1 := by
        rw [Nat.add_comm, Nat.add_mul_div_right _ _ hM, Nat.div_eq_of_lt e2, Nat.zero_add]
      have e4 : ((d + 1) * 2 ^ M + (q - 2 ^ M)) % 2 ^ M = q - 2 ^ M := by
        rw [Nat.add_comm, Nat.add_mul_mod_self_right, Nat.mod_eq_of_lt e2]
      rw [patternValue, e1, e3, e4]
      simp only [Nat.add_one_ne_zero, if_false, Nat.add_sub_cancel]
      congr 1; omega
    · obtain rfl : q = 2 ^ M * 2 := by omega
      have e1 : d * 2 ^ M + 2 ^ M * 2 = (d + 2) * 2 ^ M := by ring
      rw [patternValue, e1, Nat.mul_mod_left, Nat.mul_div_cancel _ hM]
      simp only [Nat.add_eq_zero_iff, OfNat.ofNat_ne_zero, and_false, if_false, Nat.add_zero]
      rw [show d + 2 - 1 = d + 1 by omega, pow_succ]; ring

/-- A magnitude that is no multiple of `2^d` lies below `2^(M+d)`. -/
theorem patternValue_dvd_or_lt (M d x : Nat) : 2 ^ d ∣ patternValue M x ∨ patternValue M x < 2 ^ (M + d) := by
  have hm := Nat.mod_lt x (Nat.two_pow_pos M)
  unfold patternValue
  generalize x % 2 ^ M = m at *
  generalize x / 2 ^ M = e at *
  split
  · right
    calc m < 2 ^ M := hm
      _ ≤ 2 ^ (M + d) := Nat.pow_le_pow_right (by norm_num) (by omega)
  · rcases Nat.lt_or_ge d e with h | h
    · left
      exact Dvd.dvd.mul_left (pow_dvd_pow 2 (by omega)) _
    · right
      have h1 : 2 ^ M + m < 2 ^ (M + 1) := by rw [pow_succ]; omega
      calc (2 ^ M + m) * 2 ^ (e - 1) < 2 ^ (M + 1) * 2 ^ (e - 1) :=
            Nat.mul_lt_mul_of_pos_right h1 (Nat.two_pow_pos _)
        _ = 2 ^ (M + 1 + (e - 1)) := (pow_add ..).symm
        _ ≤ 2 ^ (M + d) := Nat.pow_le_pow_right (by norm_num) (by omega)

/-- The pattern before saturation that `roundMagnitude` computes for `n / 2^k` units. -/
def roundPattern (M n k : Nat) : Nat :=
  (msb n - (k + M)) * 2 ^ M + roundShift n (k + (msb n - (k + M)))

theorem roundMagnitude_eq (F : Format) (n k : Nat) :
    roundMagnitude F n k =
      min (roundPattern (descriptor F).mantissaBits n k) (exponentMax F * 2 ^ (descriptor F).mantissaBits) := rfl

/-- The significand that rounding leaves has the format's width: at most `2^(M+1)`, and at least `2^M` when bits were dropped. -/
theorem roundShift_significand (M n k : Nat) :
    roundShift n (k + (msb n - (k + M))) ≤ 2 ^ (M + 1) ∧
    (0 < msb n - (k + M) → 2 ^ (M + k + (msb n - (k + M))) ≤ n) := by
  have hn : n < 2 ^ (msb n + 1) := Nat.lt_log2_self
  set d := msb n - (k + M) with hd
  constructor
  · have h1 : n < 2 ^ (M + 1) * 2 ^ (k + d) := by
      rw [← pow_add]
      exact lt_of_lt_of_le hn (Nat.pow_le_pow_right (by norm_num) (by omega))
    have h2 := (roundShift_bounds n (k + d)).2
    have hp := Nat.two_pow_pos (k + d)
    by_contra hc
    have h3 : 2 ^ (M + 1) + 1 ≤ roundShift n (k + d) := by omega
    nlinarith
  · intro hpos
    have hne : n ≠ 0 := by rintro rfl; simp [msb] at hd; omega
    have := Nat.log2_self_le hne
    rwa [show M + k + d = msb n by omega]

theorem roundShift_ge (n sh j : Nat) (h : j * 2 ^ sh ≤ n) : j ≤ roundShift n sh := by
  have h1 := (roundShift_bounds n sh).1
  have hp := Nat.two_pow_pos sh
  by_contra hc
  have : roundShift n sh + 1 ≤ j := by omega
  nlinarith

/-- What the rounded pattern stands for: its significand times the step. -/
theorem patternValue_roundPattern (M n k : Nat) :
    patternValue M (roundPattern M n k) =
      roundShift n (k + (msb n - (k + M))) * 2 ^ (msb n - (k + M)) := by
  obtain ⟨h1, h2⟩ := roundShift_significand M n k
  refine patternValue_of_significand M _ _ h1 fun hpos => ?_
  apply roundShift_ge
  calc 2 ^ M * 2 ^ (k + (msb n - (k + M))) = 2 ^ (M + k + (msb n - (k + M))) := by rw [← pow_add, Nat.add_assoc]
    _ ≤ n := h2 hpos

/-- `roundPattern` rounds to nearest, ties to even, among all patterns of the format with its exponent unbounded upward (R12): in units of
`2^-k`, no pattern is nearer to `n`, and one equally near has the same value unless the rounded one is even. -/
theorem roundPattern_nearest (M n k x : Nat) (hM : 0 < M) :
    |(n : Int) - patternValue M (roundPattern M n k) * 2 ^ k| ≤ |(n : Int) - patternValue M x * 2 ^ k| ∧
    (|(n : Int) - patternValue M (roundPattern M n k) * 2 ^ k| = |(n : Int) - patternValue M x * 2 ^ k| →
      patternValue M x = patternValue M (roundPattern M n k) ∨ roundPattern M n k % 2 = 0) := by
  have hsig := roundShift_significand M n k
  have hpar : roundPattern M n k % 2 = roundShift n (k + (msb n - (k + M))) % 2 := by
    obtain ⟨M', rfl⟩ : ∃ M', M = M' + 1 := ⟨M - 1, by omega⟩
    rw [roundPattern, pow_succ, show ∀ a : Nat, a * (2 ^ M' * 2) = 2 * (a * 2 ^ M') by intro a; ring]
    omega
  rw [patternValue_roundPattern, hpar]
  set d := msb n - (k + M) with hd
  have hnear := roundShift_nearest n (k + d)
  set q := roundShift n (k + d) with hq
  have key : ((q * 2 ^ d : Nat) : Int) * 2 ^ k = q * 2 ^ (k + d) := by push_cast; ring
  rw [key]
  rcases patternValue_dvd_or_lt M d x with ⟨j, hj⟩ | hlt
  · have : (patternValue M x : Int) * 2 ^ k = (j : Nat) * 2 ^ (k + d) := by rw [hj]; push_cast; ring
    rw [this]
    refine ⟨(hnear j).1, fun h => ((hnear j).2 h).imp (fun h => ?_) id⟩
    rw [hj, h]; ring
  · rcases Nat.eq_zero_or_pos d with h0 | hpos
    · have : (patternValue M x : Int) * 2 ^ k = (patternValue M x : Nat) * 2 ^ (k + d) := by rw [h0]; rfl
      rw [this]
      refine ⟨(hnear _).1, fun h => ((hnear _).2 h).imp (fun h => ?_) id⟩
      rw [h, h0]; simp
    · have h2 := hsig.2 hpos
      have h3 := (hnear (2 ^ M)).1
      have e : ((2 ^ M : Nat) : Int) * 2 ^ (k + d) = 2 ^ (M + k + d) := by
        push_cast; rw [← pow_add, Nat.add_assoc]
      rw [e] at h3
      have h4 : (patternValue M x : Int) * 2 ^ k < 2 ^ (M + k + d) := by
        have : patternValue M x * 2 ^ k < 2 ^ (M + d) * 2 ^ k := Nat.mul_lt_mul_of_pos_right hlt (Nat.two_pow_pos k)
        rw [← pow_add, show M + d + k = M + k + d by omega] at this
        exact_mod_cast this
      have h5 : (2 : Int) ^ (M + k + d) ≤ n := by exact_mod_cast h2
      have h6 : |(n : Int) - 2 ^ (M + k + d)| < |(n : Int) - patternValue M x * 2 ^ k| := by
        rw [abs_of_nonneg (by linarith), abs_of_nonneg (by linarith)]; linarith
      exact ⟨by linarith, fun h => by linarith⟩

/-- Magnitude patterns are ordered as the values they stand for. -/
theorem patternValue_strictMono (M : Nat) : StrictMono (patternValue M) := by
  refine strictMono_nat_of_lt_succ fun x => ?_
  have hM := Nat.two_pow_pos M
  have hx := Nat.div_add_mod x (2 ^ M)
  have hm := Nat.mod_lt x hM
  have e : x = x / 2 ^ M * 2 ^ M + x % 2 ^ M := by rw [Nat.mul_comm]; omega
  generalize x / 2 ^ M = a at *
  generalize x % 2 ^ M = b at *
  subst e
  cases a with
  | zero =>
    have h1 := patternValue_of_significand M 0 b (by rw [pow_succ]; omega) (by omega)
    have h2 := patternValue_of_significand M 0 (b + 1) (by rw [pow_succ]; omega) (by omega)
    rw [h1, Nat.add_assoc, h2]; omega
  | succ d =>
    have h1 := patternValue_of_significand M d (2 ^ M + b) (by rw [pow_succ]; omega) (by omega)
    have h2 := patternValue_of_significand M d (2 ^ M + b + 1) (by rw [pow_succ]; omega) (by omega)
    have e1 : (d + 1) * 2 ^ M + b = d * 2 ^ M + (2 ^ M + b) := by ring
    rw [e1, Nat.add_assoc, h1, h2]
    exact Nat.mul_lt_mul_of_pos_right (by omega) (Nat.two_pow_pos d)

/-- Of two neighbouring points `P - s` and `P`, the one at least as far out as `P` is the nearer only from the midpoint on. -/
theorem midpoint_le_of_near {n v P s : Int} (hs : 0 < s) (hv : P ≤ v) (h : |n - v| ≤ |n - (P - s)|) : 2 * P - s ≤ 2 * n := by
  cases abs_cases (n - v) <;> cases abs_cases (n - (P - s)) <;> omega

/-- From the midpoint on, a point up to `P - s` is as near as `P` only if it is `P - s` and the two are equally near. -/
theorem eq_of_near_below_midpoint {n v P s : Int} (hs : 0 < s) (hv : v ≤ P - s) (h : |n - v| ≤ |n - P|)
    (hn : 2 * P - s ≤ 2 * n) : v = P - s ∧ |n - v| = |n - P| := by
  cases abs_cases (n - v) <;> cases abs_cases (n - P) <;> constructor <;> omega

/-- Rounding reaches the pattern after the largest finite one, exponent field `d + 2`, exactly from the midpoint on (R63, R93). -/
theorem roundPattern_overflow_iff (M d n k : Nat) (hM : 0 < M) :
    (d + 2) * 2 ^ M ≤ roundPattern M n k ↔ (2 ^ (M + 2) - 1) * 2 ^ (d + k) ≤ 2 * n := by
  have hmono := patternValue_strictMono M
  have h2M := Nat.two_pow_pos M
  have eA : 2 ^ (M + 1) = 2 * 2 ^ M := by rw [pow_succ, Nat.mul_comm]
  have eU : 2 ^ (M + 2) = 4 * 2 ^ M := by rw [pow_succ, pow_succ]; ring
  have eP : d * 2 ^ M + 2 * 2 ^ M = (d + 2) * 2 ^ M := by ring
  have hodd : (d * 2 ^ M + (2 * 2 ^ M - 1)) % 2 = 1 := by
    obtain ⟨M', rfl⟩ : ∃ M', M = M' + 1 := ⟨M - 1, by omega⟩
    have := Nat.two_pow_pos M'
    rw [pow_succ 2 M', show d * (2 ^ M' * 2) = 2 * (d * 2 ^ M') by ring]
    omega
  have hX := patternValue_of_significand M d (2 * 2 ^ M) (by rw [eA]) (by omega)
  have hL := patternValue_of_significand M d (2 * 2 ^ M - 1) (by rw [eA]; omega) (by omega)
  rw [eP] at hX
  have nX := roundPattern_nearest M n k ((d + 2) * 2 ^ M) hM
  have nL := (roundPattern_nearest M n k (d * 2 ^ M + (2 * 2 ^ M - 1)) hM).1
  rw [hX] at nX
  rw [hL] at nL
  have hlast : d * 2 ^ M + (2 * 2 ^ M - 1) + 1 = (d + 2) * 2 ^ M := by omega
  rw [eU, pow_add]
  generalize roundPattern M n k = p at *
  have hs : (0 : Int) < 2 ^ d * 2 ^ k := by positivity
  have c1 : ((2 * 2 ^ M * 2 ^ d : Nat) : Int) * 2 ^ k = 2 * 2 ^ M * (2 ^ d * 2 ^ k) := by push_cast; ring
  have c2 : (((2 * 2 ^ M - 1) * 2 ^ d : Nat) : Int) * 2 ^ k = 2 * 2 ^ M * (2 ^ d * 2 ^ k) - 2 ^ d * 2 ^ k := by
    rw [Nat.cast_mul, Nat.cast_sub (by omega)]; push_cast; ring
  have c3 : (4 * 2 ^ M - 1) * (2 ^ d * 2 ^ k) ≤ 2 * n ↔
      2 * (2 * 2 ^ M * (2 ^ d * 2 ^ k)) - 2 ^ d * 2 ^ k ≤ 2 * (n : Int) := by
    rw [← Nat.cast_le (α := Int), Nat.cast_mul, Nat.cast_sub (by omega)]
    push_cast
    constructor <;> intro h <;> linarith
  rw [c1] at nX
  rw [c2] at nL
  rw [c3]
  constructor
  · intro h
    refine midpoint_le_of_near hs ?_ nL
    rw [← c1, ← hX]
    exact_mod_cast Nat.mul_le_mul_right _ (hmono.monotone h)
  · intro h
    by_contra hc
    have hle : (patternValue M p : Int) * 2 ^ k ≤ 2 * 2 ^ M * (2 ^ d * 2 ^ k) - 2 ^ d * 2 ^ k := by
      rw [← c2, ← hL]
      exact_mod_cast Nat.mul_le_mul_right _ (hmono.monotone (by omega))
    obtain ⟨e1, e2⟩ := eq_of_near_below_midpoint hs hle nX.1 h
    rw [← c2, ← hL] at e1
    have hk : (2 : Int) ^ k ≠ 0 := by positivity
    have hp : p = d * 2 ^ M + (2 * 2 ^ M - 1) := hmono.injective (by exact_mod_cast mul_right_cancel₀ hk e1)
    rcases nX.2 e2 with h3 | h3
    · have := hmono.injective (h3.symm.trans hX.symm)
      omega
    · omega

/-- The ROM, word by word (R35). -/
theorem romRead_words :
    romRead 0 = 0x2008177F ∧ romRead 1 = 0x10050A0F ∧ romRead 2 = 0x1008077F ∧ romRead 3 = 0x08040307 := by
  decide

/-- A sign above a magnitude, as a number. -/
theorem withSign_toNat {n : Nat} (s : BitVec 1) (m : BitVec n) : (withSign s m).toNat = s.toNat * 2 ^ n + m.toNat := by
  rw [withSign, BitVec.toNat_append, ← Nat.shiftLeft_add_eq_or_of_lt m.isLt, Nat.shiftLeft_eq]

/-- The lane keeps the number (R48). -/
theorem resultLane_toNat {w : Nat} (v : BitVec w) (h : w ≤ 32) : (resultLane v).toNat = v.toNat := by
  rw [resultLane, BitVec.toNat_setWidth]
  exact Nat.mod_eq_of_lt (lt_of_lt_of_le v.isLt (Nat.pow_le_pow_right (by norm_num) h))

@[simp] theorem booleanLane_true : booleanLane true = 1 := rfl

@[simp] theorem booleanLane_false : booleanLane false = 0 := rfl

/-- The lane of ISCLOSE carries 1 exactly for true (R48). -/
theorem booleanLane_eq_one (v : Bool) : booleanLane v = 1 ↔ v = true := by
  cases v <;> decide

end Sys2Proof.Machine
end

