-- ==== Sys2Proof/Laws/Value.lean ====
section
/-! SUPPORT. The value of a pattern (10_state.md R29) in terms of its magnitude, and the specification of rounding in rationals
(00_scope.md R12). -/

namespace Sys2Proof.Machine

/-- What the formats have in common: at least one mantissa bit, and a bias of half the exponent range (R21). -/
theorem descriptor_regular (F : Format) :
    0 < (descriptor F).mantissaBits ∧ exponentMax F = 2 * (descriptor F).bias + 1 ∧ 0 < (descriptor F).bias ∧
    (descriptor F).totalBits = 1 + (descriptor F).exponentBits + (descriptor F).mantissaBits := by
  cases F <;> simp [descriptor, exponentMax]

/-- The bits of a pattern below its sign, as a number. -/
def magnitudeOf (F : Format) {w : Nat} (p : BitVec w) : Nat :=
  p.toNat % (2 ^ (descriptor F).mantissaBits * 2 ^ (descriptor F).exponentBits)

theorem magnitudeOf_div (F : Format) {w : Nat} (p : BitVec w) :
    magnitudeOf F p / 2 ^ (descriptor F).mantissaBits = exponentOf F p :=
  Nat.mod_mul_right_div_self _ _ _

theorem magnitudeOf_mod (F : Format) {w : Nat} (p : BitVec w) :
    magnitudeOf F p % 2 ^ (descriptor F).mantissaBits = mantissaOf F p :=
  Nat.mod_mul_right_mod _ _ _

/-- The scaled magnitude of a pattern is the value of its magnitude pattern (R29). -/
theorem scaledMagnitude_eq (F : Format) {w : Nat} (p : BitVec w) :
    scaledMagnitude F p = patternValue (descriptor F).mantissaBits (magnitudeOf F p) := by
  rw [patternValue, magnitudeOf_div, magnitudeOf_mod, scaledMagnitude]

theorem exponentOf_lt (F : Format) {w : Nat} (p : BitVec w) : exponentOf F p ≤ exponentMax F := by
  have := Nat.mod_lt (p.toNat / 2 ^ (descriptor F).mantissaBits) (Nat.two_pow_pos (descriptor F).exponentBits)
  unfold exponentOf exponentMax
  omega

/-- A pattern is finite exactly when its magnitude lies below the infinity's (R29, R30). -/
theorem isFinite_iff (F : Format) {w : Nat} (p : BitVec w) :
    isFinite F p = true ↔ magnitudeOf F p < exponentMax F * 2 ^ (descriptor F).mantissaBits := by
  rw [← Nat.div_lt_iff_lt_mul (Nat.two_pow_pos _), magnitudeOf_div, isFinite, bne_iff_ne]
  have := exponentOf_lt F p
  omega

/-- A pattern is an infinity exactly when its magnitude is the infinity's (R30). -/
theorem isInfinity_iff (F : Format) {w : Nat} (p : BitVec w) :
    isInfinity F p = true ↔ magnitudeOf F p = exponentMax F * 2 ^ (descriptor F).mantissaBits := by
  have h1 := magnitudeOf_div F p
  have h2 := magnitudeOf_mod F p
  have h3 := Nat.div_add_mod (magnitudeOf F p) (2 ^ (descriptor F).mantissaBits)
  have hpos : 0 < exponentMax F := by have := (descriptor_regular F).2.1; omega
  have hM := Nat.two_pow_pos (descriptor F).mantissaBits
  rw [h1, h2] at h3
  rw [isInfinity, beq_iff_eq, classify]
  constructor
  · intro h
    split at h
    · split at h <;> cases h
    · split at h
      · split at h
        · rename_i _ he hm
          rw [he, hm] at h3
          rw [← h3, Nat.mul_comm]; rfl
        · cases h
      · cases h
  · intro h
    have he : exponentOf F p = exponentMax F := by rw [← h1, h, Nat.mul_div_cancel _ hM]
    have hm : mantissaOf F p = 0 := by rw [← h2, h, Nat.mul_mod_left]
    rw [if_neg (by omega), if_pos he, if_pos hm]

/-- A value as a signed count of units. -/
theorem val_eq (F : Format) {w : Nat} (p : BitVec w) :
    val F p = (if signOf F p then -1 else 1) * (scaledMagnitude F p : ℚ) / 2 ^ unitExponent F := by
  unfold val scaledValue
  split <;> push_cast <;> ring

theorem abs_val (F : Format) {w : Nat} (p : BitVec w) :
    |val F p| = (scaledMagnitude F p : ℚ) / 2 ^ unitExponent F := by
  rw [val_eq]
  split <;> simp [abs_div]

/-- A number that a pattern stands for exactly rounds to that pattern (R12). -/
theorem nearestEven_of_exact (F : Format) {w : Nat} (p : BitVec w) (h : isFinite F p = true) : NearestEven F (val F p) p := by
  refine ⟨h, fun q _ => ⟨by simp, fun he => Or.inl ?_⟩⟩
  rw [sub_self, abs_zero] at he
  linarith [abs_eq_zero.mp he.symm]

/-- The whole specification of `roundMagnitude` (R12, R93): a pattern with the magnitude it computes for `n / 2^k` units is the
result of rounding that number, with the pattern's own sign. -/
theorem roundsTo_roundMagnitude (F : Format) {w : Nat} (p : BitVec w) (n k : Nat)
    (hp : magnitudeOf F p = roundMagnitude F n k) :
    RoundsTo F ((if signOf F p then -1 else 1) * ((n : ℚ) / (2 ^ k * 2 ^ unitExponent F))) p := by
  obtain ⟨hM, hE, hB, -⟩ := descriptor_regular F
  rw [roundMagnitude_eq] at hp
  have hover := roundPattern_overflow_iff (descriptor F).mantissaBits (exponentMax F - 2) n k hM
  rw [show exponentMax F - 2 + 2 = exponentMax F by omega] at hover
  set M := (descriptor F).mantissaBits with hMdef
  set B := (descriptor F).bias with hBdef
  set σ : ℚ := if signOf F p then -1 else 1 with hσ
  have hσ1 : |σ| = 1 := by rw [hσ]; split <;> simp
  have hσ2 : σ * σ = 1 := by rw [hσ]; split <;> norm_num
  have hu : (0 : ℚ) < 2 ^ k * 2 ^ unitExponent F := by positivity
  have habs : |σ * ((n : ℚ) / (2 ^ k * 2 ^ unitExponent F))| = (n : ℚ) / (2 ^ k * 2 ^ unitExponent F) := by
    rw [abs_mul, hσ1, one_mul, abs_of_nonneg (by positivity)]
  have hthr : (n : ℚ) / (2 ^ k * 2 ^ unitExponent F) < overflowThreshold F ↔
      ¬ (2 ^ (M + 2) - 1) * 2 ^ (exponentMax F - 2 + k) ≤ 2 * n := by
    have h1 : (1 : Nat) ≤ 2 ^ (M + 2) := Nat.one_le_two_pow
    rw [not_le, ← Nat.cast_lt (α := ℚ), overflowThreshold, ← hMdef, ← hBdef, div_lt_div_iff₀ hu (by positivity)]
    push_cast [h1]
    have e1 : exponentMax F - 2 + k = (B + (B - 1)) + k := by omega
    have e2 : unitExponent F = (B - 1) + M := by rw [unitExponent, ← hMdef, ← hBdef]; omega
    have h2 : (0 : ℚ) < 2 ^ M := by positivity
    rw [e1, e2]
    simp only [pow_add]
    constructor <;> intro h
    · apply lt_of_mul_lt_mul_right _ h2.le
      ring_nf at h ⊢; linarith
    · have := mul_lt_mul_of_pos_right h h2
      ring_nf at this ⊢; linarith
  unfold RoundsTo
  rw [habs]
  by_cases ho : (2 ^ (M + 2) - 1) * 2 ^ (exponentMax F - 2 + k) ≤ 2 * n
  · rw [if_neg (hthr.not.mpr (not_not.mpr ho))]
    rw [min_eq_right (hover.mpr ho)] at hp
    refine ⟨(isInfinity_iff F p).mpr hp, ?_⟩
    have hn : (0 : ℚ) < n := by
      have : 0 < (2 ^ (M + 2) - 1) * 2 ^ (exponentMax F - 2 + k) := by
        have : 2 ≤ 2 ^ (M + 2) := by rw [pow_add]; have := Nat.two_pow_pos M; omega
        exact Nat.mul_pos (by omega) (Nat.two_pow_pos _)
      exact_mod_cast (by omega : 0 < n)
    have hq : (0 : ℚ) < (n : ℚ) / (2 ^ k * 2 ^ unitExponent F) := by positivity
    rw [hσ]
    cases signOf F p
    · simp [hq.le]
    · simp [hn]
  · rw [if_pos (hthr.mpr ho)]
    have hlt : roundPattern M n k < exponentMax F * 2 ^ M := by
      by_contra hc; exact ho (hover.mp (by omega))
    rw [min_eq_left hlt.le] at hp
    refine ⟨(isFinite_iff F p).mpr (by rw [hp]; exact hlt), fun q hq => ?_⟩
    have hnear := roundPattern_nearest M n k
    have hpv : scaledMagnitude F p = patternValue M (roundPattern M n k) := by rw [scaledMagnitude_eq, hp]
    have hmant : mantissaOf F p % 2 = roundPattern M n k % 2 := by
      obtain ⟨M', hM'⟩ : ∃ M', M = M' + 1 := ⟨M - 1, by omega⟩
      rw [← magnitudeOf_mod, hp, ← hMdef, hM', pow_succ, Nat.mod_mul_left_mod]
    have dist : ∀ (v : Nat), |σ * ((n : ℚ) / (2 ^ k * 2 ^ unitExponent F)) - σ * (v : ℚ) / 2 ^ unitExponent F| =
        ((|(n : Int) - v * 2 ^ k| : Int) : ℚ) / (2 ^ k * 2 ^ unitExponent F) := by
      intro v
      have : σ * ((n : ℚ) / (2 ^ k * 2 ^ unitExponent F)) - σ * (v : ℚ) / 2 ^ unitExponent F =
          σ * (((n : ℚ) - v * 2 ^ k) / (2 ^ k * 2 ^ unitExponent F)) := by field_simp
      rw [this, abs_mul, hσ1, one_mul, abs_div, abs_of_pos hu]
      push_cast
      rfl
    have hp' : val F p = σ * (patternValue M (roundPattern M n k) : ℚ) / 2 ^ unitExponent F := by
      rw [val_eq, ← hσ, hpv]
    rw [hp', dist, hmant]
    by_cases hs : signOf F q = signOf F p
    · have hq' : val F q = σ * (patternValue M (magnitudeOf F q) : ℚ) / 2 ^ unitExponent F := by
        rw [val_eq, hs, ← hσ, scaledMagnitude_eq]
      obtain ⟨h1, h2⟩ := hnear (magnitudeOf F q) hM
      rw [hq', dist, div_le_div_iff_of_pos_right hu, div_left_inj' hu.ne']
      refine ⟨by exact_mod_cast h1, fun he => (h2 (by exact_mod_cast he)).imp (fun h => by rw [h]) id⟩
    · have hq' : val F q = -(σ * (scaledMagnitude F q : ℚ) / 2 ^ unitExponent F) := by
        have hneg : signOf F q = !signOf F p := by cases hq1 : signOf F q <;> cases hp1 : signOf F p <;> simp_all
        rw [val_eq, hσ, hneg]
        cases signOf F p <;> simp only [Bool.not_true, Bool.not_false, if_true, Bool.false_eq_true, if_false] <;> ring
      obtain ⟨h1, h2⟩ := hnear 0 hM
      have h0 : patternValue M 0 = 0 := by simp [patternValue]
      rw [h0] at h1 h2
      simp only [Nat.cast_zero, zero_mul, sub_zero, Nat.abs_cast] at h1 h2
      have dq : |σ * ((n : ℚ) / (2 ^ k * 2 ^ unitExponent F)) - val F q| =
          ((n : ℚ) + scaledMagnitude F q * 2 ^ k) / (2 ^ k * 2 ^ unitExponent F) := by
        have : σ * ((n : ℚ) / (2 ^ k * 2 ^ unitExponent F)) - val F q =
            σ * (((n : ℚ) + scaledMagnitude F q * 2 ^ k) / (2 ^ k * 2 ^ unitExponent F)) := by rw [hq']; field_simp; ring
        rw [this, abs_mul, hσ1, one_mul, abs_of_nonneg (by positivity)]
      have hv : (0 : ℚ) ≤ scaledMagnitude F q * 2 ^ k := by positivity
      have h1' : ((|(n : Int) - patternValue M (roundPattern M n k) * 2 ^ k| : Int) : ℚ) ≤ n := by exact_mod_cast h1
      rw [dq, div_le_div_iff_of_pos_right hu, div_left_inj' hu.ne']
      refine ⟨by linarith, fun he => ?_⟩
      have hz : (scaledMagnitude F q : ℚ) * 2 ^ k = 0 := by linarith
      have hz' : (scaledMagnitude F q : ℚ) = 0 := by
        rcases mul_eq_zero.mp hz with h | h
        · exact h
        · exact absurd h (by positivity)
      have he' : |(n : Int) - patternValue M (roundPattern M n k) * 2 ^ k| = n := by
        rw [hz, add_zero] at he; exact_mod_cast he
      refine (h2 he').imp (fun h => ?_) id
      rw [hq', hz', ← h]
      simp

end Sys2Proof.Machine
end

