-- ==== Sys2Proof/Laws/Fields.lean ====
section
/-! SUPPORT. The fields an operation takes by width are the format's fields (10_state.md R24 to R28), and what a pattern built from a
sign and a magnitude is made of. -/

namespace Sys2Proof.Machine

theorem exponent32_toNat (p : Word32) : (exponent32 p).toNat = exponentOf .binary32 p := by
  simp [exponent32, exponentOf, descriptor, BitVec.extractLsb'_toNat, Nat.shiftRight_eq_div_pow]

theorem mantissa32_toNat (p : Word32) : (mantissa32 p).toNat = mantissaOf .binary32 p := by
  simp [mantissa32, mantissaOf, descriptor, BitVec.extractLsb'_toNat]

theorem exponent16_toNat (p : Word16) : (exponent16 p).toNat = exponentOf .binary16 p := by
  simp [exponent16, exponentOf, descriptor, BitVec.extractLsb'_toNat, Nat.shiftRight_eq_div_pow]

theorem mantissa16_toNat (p : Word16) : (mantissa16 p).toNat = mantissaOf .binary16 p := by
  simp [mantissa16, mantissaOf, descriptor, BitVec.extractLsb'_toNat]

theorem exponent8_toNat (p : Word8) : (exponent8 p).toNat = exponentOf .e4m3 p := by
  simp [exponent8, exponentOf, descriptor, BitVec.extractLsb'_toNat, Nat.shiftRight_eq_div_pow]

theorem mantissa8_toNat (p : Word8) : (mantissa8 p).toNat = mantissaOf .e4m3 p := by
  simp [mantissa8, mantissaOf, descriptor, BitVec.extractLsb'_toNat]

theorem sign32_getLsbD (p : Word32) : (sign32 p).getLsbD 0 = signOf .binary32 p := by
  simp [sign32, signOf, descriptor]

theorem sign16_getLsbD (p : Word16) : (sign16 p).getLsbD 0 = signOf .binary16 p := by
  simp [sign16, signOf, descriptor]

theorem sign8_getLsbD (p : Word8) : (sign8 p).getLsbD 0 = signOf .e4m3 p := by
  simp [sign8, signOf, descriptor]

/-- The magnitude of a pattern built from a sign and a magnitude. -/
theorem magnitudeOf_withSign (F : Format) {n : Nat} (s : BitVec 1) (m : BitVec n)
    (hn : n = (descriptor F).mantissaBits + (descriptor F).exponentBits) : magnitudeOf F (withSign s m) = m.toNat := by
  rw [magnitudeOf, withSign_toNat, ← pow_add, ← hn, Nat.mul_add_mod', Nat.mod_eq_of_lt m.isLt]

/-- The sign of a pattern built from a sign and a magnitude. -/
theorem signOf_withSign (F : Format) {n : Nat} (s : BitVec 1) (m : BitVec n)
    (hn : n = (descriptor F).mantissaBits + (descriptor F).exponentBits) : signOf F (withSign s m) = s.getLsbD 0 := by
  have ht := (descriptor_regular F).2.2.2
  rw [signOf, show (descriptor F).totalBits - 1 = n by omega, withSign, BitVec.getLsbD_append]
  simp

/-- No rounded magnitude exceeds the infinity's (R12). -/
theorem roundMagnitude_le (F : Format) (n k : Nat) :
    roundMagnitude F n k ≤ exponentMax F * 2 ^ (descriptor F).mantissaBits :=
  Nat.min_le_right _ _

/-- The sign of a packed binary64 pattern. -/
theorem signOf_pack64 (negative : Bool) (m : Nat) : signOf .binary64 (pack64 negative m) = negative := by
  refine (signOf_withSign .binary64 _ _ rfl).trans ?_
  cases negative <;> rfl

/-- The magnitude of a packed binary64 pattern. -/
theorem magnitudeOf_pack64 (negative : Bool) {m : Nat} (hm : m < 2 ^ 63) : magnitudeOf .binary64 (pack64 negative m) = m := by
  refine (magnitudeOf_withSign .binary64 _ _ rfl).trans ?_
  show (BitVec.ofNat 63 m).toNat = m
  exact (BitVec.toNat_ofNat m 63).trans (Nat.mod_eq_of_lt hm)

/-- A rounded binary64 magnitude fits below the sign. -/
theorem roundMagnitude_binary64_lt (n k : Nat) : roundMagnitude .binary64 n k < 2 ^ 63 :=
  lt_of_le_of_lt (roundMagnitude_le .binary64 n k) (by decide +kernel)

end Sys2Proof.Machine
end

