-- ==== Sys2Proof/Laws/PerInstr.lean ====
section
/-! SUPPORT. Statements about every instruction as syntax, one lemma per constructor (LAWS.json). -/

namespace Sys2Proof.Laws.EncodesAsTheTableSays

/-- The encoding of the operation carries the code of the table's row with the operation's mnemonic (R46), and no reserved code. -/
def Statement (i : Instr) : Prop :=
  (∃ row ∈ opTable, row.mnemonic = i.mnemonic ∧ row.code = (encode i).op) ∧ (encode i).wellFormed = true

theorem enc32 (f : Word32) : Statement (.enc32 f) := ⟨⟨⟨"ENC32", 0x0, 0xF⟩, by simp [opTable], rfl, rfl⟩, rfl⟩
theorem dec32 (p : Word32) : Statement (.dec32 p) := ⟨⟨⟨"DEC32", 0x1, 0xF⟩, by simp [opTable], rfl, rfl⟩, rfl⟩
theorem enc16 (f : Word32) : Statement (.enc16 f) := ⟨⟨⟨"ENC16", 0x2, 0xF⟩, by simp [opTable], rfl, rfl⟩, rfl⟩
theorem dec16 (h : Word16) : Statement (.dec16 h) := ⟨⟨⟨"DEC16", 0x3, 0xF⟩, by simp [opTable], rfl, rfl⟩, rfl⟩
theorem encbf16 (f : Word32) : Statement (.encbf16 f) := ⟨⟨⟨"ENCBF16", 0x4, 0xF⟩, by simp [opTable], rfl, rfl⟩, rfl⟩
theorem decbf16 (p : Word16) : Statement (.decbf16 p) := ⟨⟨⟨"DECBF16", 0x5, 0xF⟩, by simp [opTable], rfl, rfl⟩, rfl⟩
theorem enc8 (f : Word32) : Statement (.enc8 f) := ⟨⟨⟨"ENC8", 0x6, 0xF⟩, by simp [opTable], rfl, rfl⟩, rfl⟩
theorem dec8 (p : Word8) : Statement (.dec8 p) := ⟨⟨⟨"DEC8", 0x7, 0xF⟩, by simp [opTable], rfl, rfl⟩, rfl⟩
theorem lookup (fmt : RomIndex) : Statement (.lookup fmt) := ⟨⟨⟨"LOOKUP", 0x8, 0xF⟩, by simp [opTable], rfl, rfl⟩, rfl⟩
theorem isclose (a b rel absTol : Word64) : Statement (.isclose a b rel absTol) :=
  ⟨⟨⟨"ISCLOSE", 0x9, 0xF⟩, by simp [opTable], rfl, rfl⟩, rfl⟩

end Sys2Proof.Laws.EncodesAsTheTableSays
end

