-- ==== Sys2Proof/Laws/State.lean ====
section
/-! SUPPORT. One lemma per field and update of State, and what a present does. -/

namespace Sys2Proof.Machine

@[simp] theorem driveY_inputs (v : Word32) (s : State) : (s.driveY v).inputs = s.inputs := rfl
@[simp] theorem driveY_y (v : Word32) (s : State) : (s.driveY v).y = v := rfl
@[simp] theorem driveY_pending (v : Word32) (s : State) : (s.driveY v).pending = s.pending := rfl
@[simp] theorem driveY_transcript (v : Word32) (s : State) : (s.driveY v).transcript = s.transcript := rfl

@[simp] theorem collect_inputs (s : State) : s.collect.inputs = s.inputs := rfl
@[simp] theorem collect_y (s : State) : s.collect.y = s.y := rfl
@[simp] theorem collect_pending (s : State) : s.collect.pending = s.pending := rfl
@[simp] theorem collect_transcript (s : State) : s.collect.transcript = s.transcript ++ [(s.inputs, s.y)] := rfl

@[simp] theorem present_y (s : State) : s.present.y = s.y := by
  unfold State.present; split <;> rfl

@[simp] theorem present_transcript (s : State) : s.present.transcript = s.transcript := by
  unfold State.present; split <;> rfl

/-- With nothing pending the host holds the ports. -/
theorem present_of_nil {s : State} (h : s.pending = []) : s.present = s := by
  unfold State.present; rw [h]

/-- With a command pending the host presents it, all five ports together (R117). -/
theorem present_of_cons {s : State} {c : Command} {rest : List Command} (h : s.pending = c :: rest) :
    s.present = { s with inputs := c, pending := rest } := by
  unfold State.present; rw [h]

@[simp] theorem withFetchWord_inputs (s : State) (nbits w : Nat) : (s.withFetchWord nbits w).inputs = s.inputs := rfl
@[simp] theorem withFetchWord_y (s : State) (nbits w : Nat) : (s.withFetchWord nbits w).y = s.y := rfl
@[simp] theorem withFetchWord_transcript (s : State) (nbits w : Nat) : (s.withFetchWord nbits w).transcript = s.transcript := rfl
@[simp] theorem withFetchWord_pending (s : State) (nbits w : Nat) :
    (s.withFetchWord nbits w).pending = commandOfTableWord nbits w :: s.pending := rfl

/-- What the next step presents after `withFetchWord` is that command. -/
theorem present_withFetchWord (s : State) (nbits w : Nat) :
    (s.withFetchWord nbits w).present = { s with inputs := commandOfTableWord nbits w } := rfl

end Sys2Proof.Machine
end

