-- ==== Sys2Proof/Laws/Step.lean ====
section
/-! SUPPORT. What each meaning and the step can answer, said once. -/

namespace Sys2Proof.Machine

@[simp] theorem exec_enc32 (f : Word32) (s : State) : exec (.enc32 f) s = .next (s.driveY (resultLane (enc32 f))) := rfl
@[simp] theorem exec_dec32 (p : Word32) (s : State) : exec (.dec32 p) s = .next (s.driveY (resultLane (dec32 p))) := rfl
@[simp] theorem exec_enc16 (f : Word32) (s : State) : exec (.enc16 f) s = .next (s.driveY (resultLane (enc16 f))) := rfl
@[simp] theorem exec_dec16 (h : Word16) (s : State) : exec (.dec16 h) s = .next (s.driveY (resultLane (dec16 h))) := rfl
@[simp] theorem exec_encbf16 (f : Word32) (s : State) : exec (.encbf16 f) s = .next (s.driveY (resultLane (encbf16 f))) := rfl
@[simp] theorem exec_decbf16 (p : Word16) (s : State) : exec (.decbf16 p) s = .next (s.driveY (resultLane (decbf16 p))) := rfl
@[simp] theorem exec_enc8 (f : Word32) (s : State) : exec (.enc8 f) s = .next (s.driveY (resultLane (enc8 f))) := rfl
@[simp] theorem exec_dec8 (p : Word8) (s : State) : exec (.dec8 p) s = .next (s.driveY (resultLane (dec8 p))) := rfl
@[simp] theorem exec_lookup (fmt : RomIndex) (s : State) : exec (.lookup fmt) s = .next (s.driveY (romRead fmt)) := rfl
@[simp] theorem exec_isclose (a b rel absTol : Word64) (s : State) :
    exec (.isclose a b rel absTol) s = .next (s.driveY (booleanLane (isclose a b rel absTol))) := rfl

/-- If a step answers a next state, the presented command decodes, its meaning answers a next state, and the step records it. -/
theorem step_next_cases {s t : State} (h : step s = .next t) :
    ∃ i u, decode s.present.inputs = .ok i ∧ exec i s.present = .next u ∧ t = u.collect := by
  simp only [step] at h
  split at h
  · cases h
  · rename_i i hi
    split at h <;> cases h
    rename_i u hu
    exact ⟨i, u, hi, hu, rfl⟩

/-- A step over a command with a reserved code (R49). -/
theorem step_of_error {s : State} {op : OpCode} (h : decode s.present.inputs = .error (.reservedOp op)) :
    step s = .refused (.reservedOperation op) := by
  simp only [step, h]

/-- A step over a defined command, from its meaning. -/
theorem step_of_ok {s u : State} {i : Instr} (h : decode s.present.inputs = .ok i) (hu : exec i s.present = .next u) :
    step s = .next u.collect := by
  simp only [step, h, hu]

end Sys2Proof.Machine
end

