-- ==== Sys2Proof/Tests/Slice0.lean ====
section
/-! SUPPORT. The model's own tests. Expected results are from 95_test_vectors.md (S, section 2, V and P entries) or from the worked
examples of the operation rules. The second half shows, for every statement with hypotheses, a concrete input that meets them. -/

set_option Elab.async false

namespace Sys2Proof.Tests

open Sys2Proof.Machine

/-- A command of one operand on `a`, the other ports zero. -/
def cmd (op : OpCode) (a : Word64) : Command := ⟨op, a, 0, 0, 0⟩

/-- A state in which the host has these commands to present. -/
def hostState (cs : List Command) : State := { State.reset with pending := cs }

/-- The result of one step over one command, if it has one. -/
def oneResult (c : Command) : Option Word32 :=
  match step (hostState [c]) with
  | .next t => some t.y
  | _ => none

/-! ## Well-formedness refuses the ill-formed (R49, R98, R115) -/

theorem test_wellFormed_refuses_reserved_A : (cmd 0xA 0).wellFormed = false := by decide +kernel
theorem test_wellFormed_refuses_reserved_F : (cmd 0xF 0).wellFormed = false := by decide +kernel
theorem test_wellFormed_accepts_isclose : (cmd 0x9 0).wellFormed = true := by decide +kernel
theorem test_tolerance_refuses_negative : toleranceWellFormed 0xBFF0000000000000 = false := by decide +kernel
theorem test_tolerance_refuses_nan : toleranceWellFormed 0x7FF0000000000001 = false := by decide +kernel
theorem test_tolerance_accepts_negative_zero : toleranceWellFormed 0x8000000000000000 = true := by decide +kernel
theorem test_duty_refuses_nan_abs_tol : (Instr.isclose 0 0 0 0x7FF8000000000000).hostDutyMet = false := by decide +kernel
theorem test_duty_refuses_negative_rel : (Instr.isclose 0 0 0xFFF0000000000000 0).hostDutyMet = false := by decide +kernel

/-! ## Decoding words written out from R45 and R46: op, abs_tol, rel, b, a -/

theorem test_decode_enc32 :
    decodeBits 0x0000000000000000000000000000000000000000000000000DEADBEEF7FA12345#260 = .ok (.enc32 0x7FA12345) := by decide +kernel
theorem test_decode_dec32 :
    decodeBits 0x1000000000000000000000000000000000000000000000000000000008000000A#260 = .ok (.dec32 0x8000000A) := by decide +kernel
theorem test_decode_enc16 :
    decodeBits 0x20000000000000000000000000000000000000000000000000000000133000001#260 = .ok (.enc16 0x33000001) := by decide +kernel
theorem test_decode_dec16 :
    decodeBits 0x3000000000000000000000000000000000000000000000000000000000001FC01#260 = .ok (.dec16 0xFC01) := by decide +kernel
theorem test_decode_encbf16 :
    decodeBits 0x400000000000000000000000000000000000000000000000100000002FF818000#260 = .ok (.encbf16 0xFF818000) := by decide +kernel
theorem test_decode_decbf16 :
    decodeBits 0x50000000000000000000000000000000000000000000000000000000000017F81#260 = .ok (.decbf16 0x7F81) := by decide +kernel
theorem test_decode_enc8 :
    decodeBits 0x600000000000000000000000000000000000000000000000000000001C3800000#260 = .ok (.enc8 0xC3800000) := by decide +kernel
theorem test_decode_dec8 :
    decodeBits 0x700000000000000000000000000000000000000000000000000000000000001B8#260 = .ok (.dec8 0xB8) := by decide +kernel
theorem test_decode_lookup :
    decodeBits 0x80000000000000000000000000000000000000000000000000000000000000007#260 = .ok (.lookup 3) := by decide +kernel
theorem test_decode_isclose :
    decodeBits 0x9000000000000000400000000000000030000000000000002000000000000001F#260 = .ok (.isclose 0x1F 2 3 4) := by decide +kernel
theorem test_decode_reserved :
    decodeBits 0xC0000000000000000000000000000000000000000000000000000000000000000#260 = .error (.reservedOp 0xC) := by decide +kernel
theorem test_table_word_dec8 : decodeTableWord 8 0x07 = some (.dec8 0) := by decide +kernel
theorem test_table_word_isclose : decodeTableWord 4 0x9 = some (.isclose 0 0 0 0) := by decide +kernel
theorem test_table_word_reserved : decodeTableWord 8 0x0A = none := by decide +kernel
theorem test_fetch_word_runs :
    (match step (State.reset.withFetchWord 8 0x8) with | .next t => some t.y | _ => none) = some 0x2008177F := by decide +kernel

/-! ## The operations, one evaluation each -/

theorem test_enc32_passes_signaling_nan : oneResult (cmd 0x0 0x123456787FA12345) = some 0x7FA12345 := by decide +kernel -- P5 step 4
theorem test_dec32_negative : oneResult (cmd 0x1 0xC0490FDB) = some 0xC0490FDB := by decide +kernel -- R59
theorem test_enc16_upper_bits_ignored : oneResult (cmd 0x2 0xFFFFFFFF3F800000) = some 0x00003C00 := by decide +kernel -- P5 step 1
theorem test_enc16_tie_to_least_normal : oneResult (cmd 0x2 0x387FE000) = some 0x0400 := by decide +kernel -- 2.3
theorem test_dec16_mixed_subnormal : oneResult (cmd 0x3 0x0155) = some 0x37AA8000 := by decide +kernel -- 2.4
theorem test_dec16_signaling_nan : oneResult (cmd 0x3 0x7C01) = some 0x7FC02000 := by decide +kernel -- 2.4
theorem test_encbf16_tie_to_even : oneResult (cmd 0x4 0x3F818000) = some 0x3F82 := by decide +kernel -- S9, C1
theorem test_encbf16_nan_in_low_half : oneResult (cmd 0x4 0xFF800001) = some 0xFFC0 := by decide +kernel -- 2.5
theorem test_decbf16_flushes : oneResult (cmd 0x5 0x807F) = some 0x80000000 := by decide +kernel -- 2.6
theorem test_decbf16_quiets : oneResult (cmd 0x5 0x7F81) = some 0x7FC10000 := by decide +kernel -- 2.6
theorem test_enc8_exponent_zero_is_subnormal : oneResult (cmd 0x6 0x3C400000) = some 0x06 := by decide +kernel -- 2.7, C4
theorem test_enc8_truncates_below_256 : oneResult (cmd 0x6 0x437FFFFF) = some 0x77 := by decide +kernel -- P3 step 1
theorem test_dec8_subnormal : oneResult (cmd 0x7 0xFFFFFFFFFFFFFF06) = some 0x3C400000 := by decide +kernel -- 2.8
theorem test_dec8_noncanonical_infinity : oneResult (cmd 0x7 0xF9) = some 0xFF800000 := by decide +kernel -- R90
theorem test_lookup_low_bits : oneResult (cmd 0x8 0xFFFFFFFFFFFFFFFD) = some 0x10050A0F := by decide +kernel -- 2.1
theorem test_lookup_last : oneResult (cmd 0x8 0x3) = some 0x08040307 := by decide +kernel -- 2.1
theorem test_isclose_V38_tie_to_zero :
    oneResult ⟨0x9, 0x0000000000000001, 0, 0x3FE0000000000000, 0⟩ = some 0 := by decide +kernel -- V38
theorem test_isclose_V25_rounded :
    oneResult ⟨0x9, 0x4008000000000000, 0x400A666666666666, 0x3FB999999999999A, 0⟩ = some 1 := by decide +kernel -- V25
theorem test_isclose_V28_overflow :
    isclose 0x7FEFFFFFFFFFFFFF 0xFFEFFFFFFFFFFFFF 0x3F50624DD2F1A9FC 0 = false := by decide +kernel -- V28
theorem test_fmul_P2_step5 : fmul 0x3F70000000000000 0x3FF0400000000000 = 0x3F70400000000000 := by decide +kernel -- P2
theorem test_fsub_V2 : fabs (fsub 0x3FF0000000000000 0x3FF000001AD7F29B) = 0x3E7AD7F29B000000 := by decide +kernel -- V2
theorem test_widen64_subnormal : widen64 0x007FFFFF = 0x380FFFFFC0000000 := by decide +kernel -- 2.10
theorem test_rt16_P1 : rt16 0x3DCCCCCD = 0x3DCCC000 := by decide +kernel -- P1 steps 1, 2
theorem test_rtbf16_P2 : rtbf16 0x3F818000 = 0x3F820000 := by decide +kernel -- P2 steps 1, 2
theorem test_rt8_P3 : rt8 0x437FFFFF = 0x43700000 := by decide +kernel -- P3 steps 1, 2
theorem test_reserved_refused : oneResult (cmd 0xA 0) = none := by decide +kernel -- P5 step 8

/-! ## The hypotheses of the statements are met -/

theorem met_EncodeOfDecodeClearsIgnoredBits_isclose :
    decodeBits 0x9000000000000000400000000000000030000000000000002000000000000001F#260 = .ok (.isclose 0x1F 2 3 4) ∧
    (Command.ofBits 0x9000000000000000400000000000000030000000000000002000000000000001F#260).op = 0x9 := by decide +kernel
theorem met_EncodeOfDecodeClearsIgnoredBits_other :
    decodeBits 0x7000000000000000400000000000000030000000000000002000000000000001F#260 = .ok (.dec8 0x1F) ∧
    (Command.ofBits 0x7000000000000000400000000000000030000000000000002000000000000001F#260).op ≠ 0x9 := by decide +kernel
theorem met_OnlyOpTakesPartInDecoding :
    (cmd 0x9 1).op = (cmd 0x9 2).op ∧ decode (cmd 0x9 1) = .ok (.isclose 1 0 0 0) ∧
    (cmd 0xA 1).op = (cmd 0xA 2).op ∧ decode (cmd 0xA 1) = .error (.reservedOp 0xA) := by decide +kernel
theorem met_UnusedInputBitsDoNotChangeY :
    decode (cmd 0x3 0x3C00) = .ok (.dec16 0x3C00) ∧
    (⟨0x3, 0xFFFF3C00, 7, 8, 9⟩ : Command).a.toNat % 2 ^ (Instr.dec16 0x3C00).operandBits = (cmd 0x3 0x3C00).a.toNat % 2 ^ 16 ∧
    decode (cmd 0x9 0x3C00) = .ok (.isclose 0x3C00 0 0 0) := by decide +kernel
theorem met_ExactlyTheReservedCodesAreRefused :
    10 ≤ (hostState [cmd 0xA 0]).present.inputs.op.toNat ∧ 10 ≤ (hostState [cmd 0xF 0]).present.inputs.op.toNat ∧
    step (hostState [cmd 0xA 0]) = .refused (.reservedOperation 0xA) := ⟨by decide, by decide, rfl⟩
theorem met_EveryDefinedCommandCompletes :
    (hostState [cmd 0x9 0]).pending = cmd 0x9 0 :: [] ∧ (cmd 0x9 0).op.toNat < 10 ∧
    State.reset.pending = [] ∧ State.reset.inputs.op.toNat < 10 := by decide +kernel
theorem met_StepRunsTheDecodedOperation :
    decode (hostState [cmd 0x7 0x38]).present.inputs = .ok (.dec8 0x38) ∧
    exec (.dec8 0x38) (hostState [cmd 0x7 0x38]).present = .next ((hostState [cmd 0x7 0x38]).present.driveY 0x3F800000) ∧
    (hostState [cmd 0x7 0x38]).pending = cmd 0x7 0x38 :: [] ∧ (hostState []).pending = [] ∧
    decode (hostState []).present.inputs = .ok (.enc32 0) ∧ exec (.enc32 0) (hostState []).present = .next (hostState []) :=
  ⟨by decide, rfl, rfl, rfl, by decide, rfl⟩
theorem met_OutputDependsOnTheCommandAlone :
    (hostState [cmd 0x7 0x38]).present.inputs = { hostState [cmd 0x7 0x38, cmd 0x0 1] with y := 5 }.present.inputs ∧
    ∃ t, step (hostState [cmd 0x7 0x38]) = .next t := ⟨by decide, _, rfl⟩
theorem met_StepRefinesTheModuleMultiplexer :
    coreOutput (hostState [cmd 0x9 0]).present.inputs = some 1 ∧ coreOutput (hostState [cmd 0xA 0]).present.inputs = none := by
  decide +kernel
theorem met_AnyOperationMayFollowAnyOther :
    (hostState [cmd 0x7 0x38, cmd 0x7 0x38]).pending = cmd 0x7 0x38 :: cmd 0x7 0x38 :: [] ∧
    (∃ t, step (hostState [cmd 0x7 0x38, cmd 0x7 0x38]) = .next t) ∧ (cmd 0x7 0x38).wellFormed = true :=
  ⟨rfl, ⟨_, rfl⟩, by decide⟩
theorem met_StreamIsAnsweredCommandByCommand :
    AllDefined [cmd 0x9 0, cmd 0x0 1] ∧ (hostState [cmd 0x9 0, cmd 0x0 1, cmd 0xA 0]).pending = [cmd 0x9 0, cmd 0x0 1] ++ [cmd 0xA 0] :=
  ⟨by unfold AllDefined; decide, rfl⟩
theorem met_StepKeepsRunInvariant :
    RunInvariant { hostState [cmd 0x0 1] with inputs := cmd 0xA 0, transcript := [(cmd 0x7 0x38, 0x3F800000)] } ∧
    ∃ t, step { hostState [cmd 0x0 1] with inputs := cmd 0xA 0, transcript := [(cmd 0x7 0x38, 0x3F800000)] } = .next t := by
  refine ⟨⟨fun v h => (by cases h), fun e he => ?_⟩, _, rfl⟩
  rw [List.mem_singleton.mp he]
  decide +kernel
theorem met_FirstCommandAfterResetIsAnswered : coreOutput (cmd 0x8 3) = some 0x08040307 := by decide +kernel
theorem met_BitcastsAreExactInverses :
    (hostState [cmd 0x0 0xDEADBEEF3F800000]).pending = cmd 0x0 0xDEADBEEF3F800000 :: [] ∧
    (hostState [cmd 0x1 7]).pending = cmd 0x1 7 :: [] ∧ (cmd 0x0 0xDEADBEEF3F800000).op = 0x0 ∧ (cmd 0x1 7).op = 0x1 := by
  decide +kernel
theorem met_Enc16MakesNaNCanonical : isNaN .binary32 0x7F800001#32 = true ∧ isNaN .binary32 0xFFFFFFFF#32 = true := by decide +kernel
theorem met_Enc16RoundsToNearestEven :
    isNaN .binary32 0x477FF000#32 = false ∧ 65520 ≤ |val .binary32 0x477FF000#32| ∧
    isNaN .binary32 0xFF800000#32 = false ∧ isInfinity .binary32 0xFF800000#32 = true ∧
    isNaN .binary32 0x477FEFFF#32 = false ∧ isFinite .binary32 0x477FEFFF#32 = true ∧ |val .binary32 0x477FEFFF#32| < 65520 := by
  decide +kernel
theorem met_Enc16SaturatesAtTheMidpoint :
    0x477FF000 ≤ (0xC77FF000#32).toNat % 2 ^ 31 ∧ (0xC77FF000#32).toNat % 2 ^ 31 ≤ 0x7F800000 ∧
    0x477FE000 ≤ (0x477FEFFF#32).toNat % 2 ^ 31 ∧ (0x477FEFFF#32).toNat % 2 ^ 31 < 0x477FF000 := by decide +kernel
theorem met_Enc16TinyInputsBecomeSignedZero :
    isFinite .binary32 0xB3000000#32 = true ∧ |val .binary32 0xB3000000#32| ≤ 1 / 2 ^ 25 := by decide +kernel
theorem met_Dec16IsExact : isFinite .binary16 0xFBFF#16 = true := by decide +kernel
theorem met_Dec16NormalisesSubnormals :
    isSubnormal .binary16 0x83FF#16 = true ∧ 2 ^ 9 ≤ mantissaOf .binary16 0x83FF#16 ∧ mantissaOf .binary16 0x83FF#16 < 2 ^ (9 + 1) := by
  decide +kernel
theorem met_Dec16KeepsInfinityAndNaN : isInfinity .binary16 0xFC00#16 = true ∧ isNaN .binary16 0x7C01#16 = true := by decide +kernel
theorem met_Binary16RoundTrip :
    isNaN .binary16 0x7C00#16 = false ∧ isNaN .binary16 0x7C01#16 = true ∧ isInfinity .binary32 0xFF800000#32 = true ∧
    isFinite .binary32 0x33800000#32 = true ∧ ∃ h : Word16, isFinite .binary16 h = true ∧ val .binary16 h = val .binary32 0x33800000#32 :=
  ⟨by decide +kernel, by decide +kernel, by decide +kernel, by decide +kernel, 0x0001, by decide +kernel, by decide +kernel⟩
theorem met_EncBf16QuietsNaN : isNaN .binary32 0x7F800001#32 = true := by decide +kernel
theorem met_EncBf16FlushesSubnormals : exponentOf .binary32 0x807FFFFF#32 = 0 := by decide +kernel
theorem met_EncBf16RoundsToNearestEven :
    classify .binary32 0x00800000#32 = .normal ∧ classify .binary32 0xFF7FFFFF#32 = .normal := by decide +kernel
theorem met_EncBf16RoundsByAddingABias :
    isNaN .binary32 0x7F800000#32 = false ∧ exponentOf .binary32 0x7F800000#32 ≠ 0 ∧
    isNaN .binary32 0x00800000#32 = false ∧ exponentOf .binary32 0x00800000#32 ≠ 0 := by decide +kernel
theorem met_EncBf16OverflowsByTheCarry :
    isInfinity .binary32 0xFF800000#32 = true ∧ 0x7F7F8000 ≤ (0x7F7F8000#32).toNat % 2 ^ 31 ∧ exponentOf .binary32 0x7F7F8000#32 ≠ 0 ∧
    isNaN .binary32 0x7F7F8000#32 = false ∧ (0xFF7F7FFF#32).toNat % 2 ^ 31 < 0x7F7F8000 ∧ isNaN .binary32 0xFF7F7FFF#32 = false := by
  decide +kernel
theorem met_DecBf16WidensNormalsAndFlushesSubnormals :
    classify .bfloat16 0x0080#16 = .normal ∧ classify .bfloat16 0xFF80#16 = .infinity ∧
    classify .bfloat16 0x8000#16 = .zero ∧ classify .bfloat16 0x007F#16 = .subnormal := by decide +kernel
theorem met_DecBf16KeepsNaN : isNaN .bfloat16 0x7F81#16 = true := by decide +kernel
theorem met_Bfloat16RoundTripWithItsExceptions :
    isSubnormal .bfloat16 0x7F80#16 = false ∧ isNaN .bfloat16 0x7F80#16 = false ∧ isSubnormal .bfloat16 0x0001#16 = true ∧
    isNaN .bfloat16 0x7FBF#16 = true ∧ (0x7FBF#16).getLsbD 6 = false ∧ isNaN .bfloat16 0x7FC0#16 = true ∧ (0x7FC0#16).getLsbD 6 = true ∧
    (0x7F7F0000#32).toNat % 2 ^ 16 = 0 ∧ isNaN .binary32 0x7F7F0000#32 = false ∧ isSubnormal .binary32 0x7F7F0000#32 = false := by
  decide +kernel
theorem met_Enc8TruncatesTowardZero : isFinite .binary32 0xC37FFFFF#32 = true ∧ |val .binary32 0xC37FFFFF#32| < 256 := by decide +kernel
theorem met_Enc8SaturatesToInfinity : 135 ≤ exponentOf .binary32 0x43800000#32 ∧ isFinite .binary32 0x43800000#32 = true := by decide +kernel
theorem met_Enc8SubnormalResults :
    exponentOf .binary32 0x3C7FFFFF#32 = 120 ∧ exponentOf .binary32 0x3BC00000#32 = 119 ∧ exponentOf .binary32 0x3B000000#32 = 118 ∧
    exponentOf .binary32 0xBAFFFFFF#32 ≤ 117 := by decide +kernel
theorem met_Dec8IsExactAndField15IsInfinity : exponentOf .e4m3 0x77#8 ≠ 15 ∧ exponentOf .e4m3 0xF9#8 = 15 := by decide +kernel
theorem met_Dec8ZerosAndSubnormals :
    exponentOf .e4m3 0x80#8 = 0 ∧ mantissaOf .e4m3 0x80#8 = 0 ∧ exponentOf .e4m3 0x07#8 = 0 ∧
    2 ^ 2 ≤ mantissaOf .e4m3 0x07#8 ∧ mantissaOf .e4m3 0x07#8 < 2 ^ (2 + 1) := by decide +kernel
theorem met_MicroFloatRoundTrip :
    exponentOf .e4m3 0x77#8 ≠ 15 ∧ mantissaOf .e4m3 0x78#8 = 0 ∧ exponentOf .e4m3 0x79#8 = 15 ∧ isInfinity .binary32 0x7F800000#32 = true ∧
    isFinite .binary32 0x3B000000#32 = true ∧ ∃ p : Word8, isFinite .e4m3 p = true ∧ val .e4m3 p = val .binary32 0x3B000000#32 :=
  ⟨by decide +kernel, by decide +kernel, by decide +kernel, by decide +kernel, by decide +kernel, 0x01, by decide +kernel, by decide +kernel⟩
theorem met_Enc8IsMonotonic :
    ExtendedLe .binary32 0x437FFFFF#32 0x43800000#32 ∧ ExtendedLe .binary32 0xFF800000#32 0x7F800000#32 := by
  unfold ExtendedLe; decide +kernel
theorem met_IscloseRejectsInfinityAndNaN :
    exponentOf .binary64 0x7FF0000000000000#64 = 0x7FF ∧ exponentOf .binary64 0xFFF8000000000000#64 = 0x7FF := by decide +kernel
theorem met_IscloseAcceptsEqualValues :
    isFinite .binary64 0x0000000000000000#64 = true ∧ isFinite .binary64 0x8000000000000000#64 = true ∧
    val .binary64 0x0000000000000000#64 = val .binary64 0x8000000000000000#64 := by decide +kernel
theorem met_FsubRoundsTheExactDifference :
    isFinite .binary64 0x7FEFFFFFFFFFFFFF#64 = true ∧ isFinite .binary64 0xFFEFFFFFFFFFFFFF#64 = true ∧
    val .binary64 0x7FEFFFFFFFFFFFFF#64 ≠ val .binary64 0xFFEFFFFFFFFFFFFF#64 := by decide +kernel
theorem met_FmulRoundsTheExactProduct :
    isFinite .binary64 0x0000000000000001#64 = true ∧ 0 < val .binary64 0x0000000000000001#64 ∧ isFinite .binary64 0x8000000000000000#64 = true ∧
    isInfinity .binary64 0xFFF0000000000000#64 = true ∧ isNaN .binary64 0x7FF0000000000001#64 = true := by decide +kernel
theorem met_ComparisonsAreOfExtendedNumbers :
    isFinite .binary64 0x8000000000000000#64 = true ∧ isFinite .binary64 0x0000000000000000#64 = true := by decide +kernel
theorem met_IscloseComparesDistanceWithTolerance :
    isFinite .binary64 0x3FF0000000000000#64 = true ∧ isFinite .binary64 0x4000000000000000#64 = true ∧
    val .binary64 0x3FF0000000000000#64 ≠ val .binary64 0x4000000000000000#64 ∧ isFinite .binary64 0x3FE0000000000000#64 = true ∧
    isNaN .binary64 0x0000000000000000#64 = false ∧
    RoundsTo .binary64 |val .binary64 0x3FF0000000000000#64 - val .binary64 0x4000000000000000#64| 0x3FF0000000000000#64 ∧
    RoundsTo .binary64 (val .binary64 0x3FE0000000000000#64 *
      max |val .binary64 0x3FF0000000000000#64| |val .binary64 0x4000000000000000#64|) 0x3FF0000000000000#64 := by
  have hd : |val .binary64 0x3FF0000000000000#64 - val .binary64 0x4000000000000000#64| = val .binary64 0x3FF0000000000000#64 := by
    decide +kernel
  have ht : val .binary64 0x3FE0000000000000#64 * max |val .binary64 0x3FF0000000000000#64| |val .binary64 0x4000000000000000#64| =
      val .binary64 0x3FF0000000000000#64 := by decide +kernel
  have hr : RoundsTo .binary64 (val .binary64 0x3FF0000000000000#64) 0x3FF0000000000000#64 := by
    unfold RoundsTo
    rw [if_pos (by decide +kernel)]
    exact nearestEven_of_exact _ _ (by decide +kernel)
  rw [hd, ht]
  exact ⟨by decide +kernel, by decide +kernel, by decide +kernel, by decide +kernel, by decide +kernel, hr, hr⟩
theorem met_IscloseLeavesANegativeToleranceToTheOther :
    (signOf .binary64 0xFFF0000000000000#64 = true ∧ isZero .binary64 0xFFF0000000000000#64 = false ∧
      isNaN .binary64 0xFFF0000000000000#64 = false ∧ isInfinity .binary64 0xFFF0000000000000#64 = true) ∧
    (signOf .binary64 0x8000000000000001#64 = true ∧ isZero .binary64 0x8000000000000001#64 = false ∧
      isNaN .binary64 0x8000000000000001#64 = false) ∧
    isFinite .binary64 0x3FF0000000000000#64 = true ∧ isFinite .binary64 0x4000000000000000#64 = true ∧
    val .binary64 0x3FF0000000000000#64 ≠ val .binary64 0x4000000000000000#64 ∧ isFinite .binary64 0x3FE0000000000000#64 = true ∧
    RoundsTo .binary64 |val .binary64 0x3FF0000000000000#64 - val .binary64 0x4000000000000000#64| 0x3FF0000000000000#64 ∧
    RoundsTo .binary64 (val .binary64 0x3FE0000000000000#64 *
      max |val .binary64 0x3FF0000000000000#64| |val .binary64 0x4000000000000000#64|) 0x3FF0000000000000#64 := by
  obtain ⟨ha, hb, hab, hrel, -, hd, ht⟩ := met_IscloseComparesDistanceWithTolerance
  exact ⟨by decide +kernel, by decide +kernel, ha, hb, hab, hrel, hd, ht⟩
/-- R92 with D18: `ISCLOSE 1.0, 2.0, -infinity, 1.0` is 1 (the absolute tolerance decides, inclusively), and with the next pattern
below 1.0 it is 0. -/
theorem test_isclose_negative_infinite_relative :
    isclose 0x3FF0000000000000#64 0x4000000000000000#64 0xFFF0000000000000#64 0x3FF0000000000000#64 = true ∧
    isclose 0x3FF0000000000000#64 0x4000000000000000#64 0xFFF0000000000000#64 0x3FEFFFFFFFFFFFFF#64 = false := by decide +kernel
theorem met_IscloseZeroTolerancesMeanEquality :
    isFinite .binary64 0x0000000000000001#64 = true ∧ isFinite .binary64 0x0000000000000000#64 = true ∧
    isZero .binary64 0x0000000000000000#64 = true ∧ isZero .binary64 0x8000000000000000#64 = true := by decide +kernel
theorem met_IscloseInfiniteRelativeToleranceAcceptsAllFinite :
    isFinite .binary64 0x7FEFFFFFFFFFFFFF#64 = true ∧ isFinite .binary64 0xFFEFFFFFFFFFFFFF#64 = true := by decide +kernel
theorem met_IscloseOverflowedDistanceNeedsInfiniteTolerance :
    isFinite .binary64 0x7FEFFFFFFFFFFFFF#64 = true ∧ isFinite .binary64 0xFC90000000000000#64 = true ∧
    overflowThreshold .binary64 ≤ |val .binary64 0x7FEFFFFFFFFFFFFF#64 - val .binary64 0xFC90000000000000#64| := by decide +kernel
theorem met_IscloseNegativeTolerancesAcceptEqualityOnly :
    isFinite .binary64 0x3FF0000000000000#64 = true ∧ isNaN .binary64 0xFFF0000000000000#64 = false ∧
    signOf .binary64 0xFFF0000000000000#64 = true ∧ isZero .binary64 0xFFF0000000000000#64 = false ∧
    isNaN .binary64 0x8000000000000001#64 = false ∧ signOf .binary64 0x8000000000000001#64 = true ∧
    isZero .binary64 0x8000000000000001#64 = false := by decide +kernel
theorem met_IscloseIgnoresNaNTolerance :
    isFinite .binary64 0x3FF0000000000000#64 = true ∧ isFinite .binary64 0x4000000000000000#64 = true ∧
    val .binary64 0x3FF0000000000000#64 ≠ val .binary64 0x4000000000000000#64 ∧ isNaN .binary64 0xFFF8000000000000#64 = true := by
  decide +kernel
theorem met_WideningIsExact :
    isFinite .binary32 0x00000001#32 = true ∧ isInfinity .binary32 0xFF800000#32 = true ∧ isNaN .binary32 0x7F800001#32 = true := by
  decide +kernel

end Sys2Proof.Tests
end

section
/-! SUPPORT. What one step does, said through the function CORE: the value an operation drives, that value read off the module
multiplexer, and the one state a step can answer (00_scope.md R13, 10_state.md R14, R23). -/

namespace Sys2Proof.Machine

/-- The value an operation drives onto `y`; `exec_eq_driveY` ties it to `exec`, `coreOutput_of_decode_ok` to the multiplexer. -/
def drivenValue : Instr → Word32
  | .enc32 f => resultLane (enc32 f)
  | .dec32 p => resultLane (dec32 p)
  | .enc16 f => resultLane (enc16 f)
  | .dec16 h => resultLane (dec16 h)
  | .encbf16 f => resultLane (encbf16 f)
  | .decbf16 p => resultLane (decbf16 p)
  | .enc8 f => resultLane (enc8 f)
  | .dec8 p => resultLane (dec8 p)
  | .lookup fmt => romRead fmt
  | .isclose a b rel absTol => booleanLane (isclose a b rel absTol)

/-- Every operation completes, and all it does is to drive its value. -/
theorem exec_eq_driveY (i : Instr) (s : State) : exec i s = .next (s.driveY (drivenValue i)) := by
  cases i <;> rfl

/-- The lane is the port itself for a 32-bit result. -/
@[simp] theorem resultLane_word32 (v : Word32) : resultLane v = v :=
  BitVec.setWidth_eq v

/-- The four byte outputs of the ROM module, side by side, are the ROM word (R23, R35). -/
theorem formatDescriptorRom_bytes (fmt : RomIndex) :
    (formatDescriptorRom fmt).totalBits ++ (formatDescriptorRom fmt).exponentBits ++
      (formatDescriptorRom fmt).mantissaBits ++ (formatDescriptorRom fmt).bias = romRead fmt := by
  revert fmt
  decide

/-- The multiplexer gives what the operation drives that the command decodes to. -/
theorem coreOutput_of_decode_ok {c : Command} {i : Instr} (h : decode c = .ok i) : coreOutput c = some (drivenValue i) := by
  unfold decode at h
  split at h <;> cases h
  all_goals rename_i hop
  case h_9 => simpa [coreOutput, hop, drivenValue] using formatDescriptorRom_bytes (c.a.extractLsb' 0 2)
  all_goals simp [coreOutput, hop, drivenValue, enc32, dec32, binary32ToBinary16Converter, binary32ToBfloat16Converter,
    binary32ToFloat8E4m3Converter, floatingPointTolerantComparator]

/-- The multiplexer gives nothing where the decoder refuses (R49). -/
theorem coreOutput_of_decode_error {c : Command} {e : DecodeError} (h : decode c = .error e) : coreOutput c = none := by
  unfold decode at h
  split at h <;> cases h
  simp [coreOutput, *]

/-- A step answers a next state exactly where CORE is defined on the presented command, and then that one: the presented
state with CORE's value driven and recorded. -/
theorem step_next_iff (s t : State) :
    step s = .next t ↔ ∃ v, coreOutput s.present.inputs = some v ∧ t = (s.present.driveY v).collect := by
  constructor
  · intro h
    obtain ⟨i, u, hi, hu, rfl⟩ := step_next_cases h
    rw [exec_eq_driveY] at hu
    cases hu
    exact ⟨_, coreOutput_of_decode_ok hi, rfl⟩
  · rintro ⟨v, hv, rfl⟩
    cases hd : decode s.present.inputs with
    | error e => rw [coreOutput_of_decode_error hd] at hv; cases hv
    | ok i =>
      rw [coreOutput_of_decode_ok hd] at hv
      cases hv
      exact step_of_ok hd (exec_eq_driveY i _)

/-- CORE is defined on every command with a defined code (R46, R50). -/
theorem coreOutput_isSome_of_wellFormed {c : Command} (h : c.wellFormed = true) : ∃ v, coreOutput c = some v := by
  have hop : c.op.toNat < 10 := of_decide_eq_true h
  rcases decode_cases c with ⟨-, i, hi⟩ | ⟨hge, -⟩
  · exact ⟨_, coreOutput_of_decode_ok hi⟩
  · omega

/-- A run goes on from the state its first step answers. -/
theorem run_succ_of_step {s t : State} (h : step s = .next t) (k : Nat) :
    Sys2Proof.core.run (k + 1) s = Sys2Proof.core.run k t := by
  have h' : Sys2Proof.core.step s = .next t := h
  simp only [Host.Core.run, h']

end Sys2Proof.Machine
end

section
/-! The statements about the step and sequences of evaluations (00_scope.md R13, 10_state.md R14). -/

namespace Sys2Proof.Machine

/-- Settles O15: by `step_next_iff` the step drives CORE's value for the presented command and appends that one pair to the
record. -/
theorem stepKeepsRunInvariant : Obligations.StepKeepsRunInvariant := by
  intro s t hs h
  obtain ⟨v, hv, rfl⟩ := (step_next_iff s t).mp h
  refine ⟨fun w hw => ?_, fun e he => ?_⟩
  · exact Option.some.inj (hv.symm.trans hw)
  · rw [collect_transcript, driveY_transcript, present_transcript, List.mem_append, List.mem_singleton] at he
    rcases he with he | rfl
    · exact hs.transcriptRight e he
    · exact hv

/-- Settles O10: the value is `drivenValue`, chosen before the state is known. -/
theorem everyOperationOnlyDrivesY : Obligations.EveryOperationOnlyDrivesY :=
  fun i => ⟨drivenValue i, exec_eq_driveY i⟩

/-- Settles O11: both steps drive CORE's value for the one command. -/
theorem outputDependsOnTheCommandAlone : Obligations.OutputDependsOnTheCommandAlone := by
  intro s s' t hin h
  obtain ⟨v, hv, rfl⟩ := (step_next_iff s t).mp h
  exact ⟨_, (step_next_iff s' _).mpr ⟨v, hin ▸ hv, rfl⟩, rfl⟩

/-- Settles O12: where CORE is defined by `step_next_iff`; where it is not, the decoder has refused the code. -/
theorem stepRefinesTheModuleMultiplexer : Obligations.StepRefinesTheModuleMultiplexer := by
  intro s
  refine ⟨fun v hv => ⟨_, (step_next_iff s _).mpr ⟨v, hv, rfl⟩, rfl⟩, fun hnone => ?_⟩
  rcases decode_cases s.present.inputs with ⟨-, i, hi⟩ | ⟨-, herr⟩
  · rw [coreOutput_of_decode_ok hi] at hnone
    cases hnone
  · exact ⟨_, step_of_error herr⟩

/-- Settles O14, by induction on the stream: the first step presents and records its head, and leaves the tail pending. -/
theorem streamIsAnsweredCommandByCommand : Obligations.StreamIsAnsweredCommandByCommand := by
  intro cs
  induction cs with
  | nil => exact fun rest s _ hp => ⟨s, [], rfl, hp, .nil, by simp⟩
  | cons c cs ih =>
    intro rest s hdef hp
    obtain ⟨v, hv⟩ := coreOutput_isSome_of_wellFormed (hdef c List.mem_cons_self)
    have hpres : s.present = { s with inputs := c, pending := cs ++ rest } := present_of_cons hp
    have hstep : step s = .next (s.present.driveY v).collect :=
      (step_next_iff s _).mpr ⟨v, by rw [hpres]; exact hv, rfl⟩
    obtain ⟨t, ys, hrun, hrest, hys, htr⟩ := ih rest (s.present.driveY v).collect
      (fun d hd => hdef d (List.mem_cons_of_mem c hd)) (by rw [hpres]; rfl)
    refine ⟨t, v :: ys, (run_succ_of_step hstep _).trans hrun, hrest, .cons hv hys, ?_⟩
    simp [htr, hpres]

/-- Settles O9: `step_of_ok`, with the two cases of the host's presenting. -/
theorem stepRunsTheDecodedOperation : Obligations.StepRunsTheDecodedOperation :=
  fun _ _ _ hd hu => ⟨step_of_ok hd hu, present_of_nil, fun _ _ => present_of_cons⟩

end Sys2Proof.Machine
end

section
/-! SUPPORT. The comparator's arithmetic as one rounding of an exact number of units (45_comparator.md R93), from
`roundsTo_roundMagnitude`. -/

namespace Sys2Proof.Machine

theorem isZero_iff_scaledMagnitude (F : Format) {w : Nat} (p : BitVec w) (h : isFinite F p = true) :
    isZero F p = true ↔ scaledMagnitude F p = 0 := by
  have he : exponentOf F p ≠ exponentMax F := bne_iff_ne.mp h
  by_cases h0 : exponentOf F p = 0
  · by_cases hm : mantissaOf F p = 0 <;> simp [isZero, classify, scaledMagnitude, h0, hm]
  · simp [isZero, classify, scaledMagnitude, h0, he]

/-- A finite pattern is neither a NaN nor an infinity (R29, R30). -/
theorem not_nan_not_infinity_of_isFinite (F : Format) {w : Nat} (p : BitVec w) (h : isFinite F p = true) :
    isNaN F p = false ∧ isInfinity F p = false := by
  have he : exponentOf F p ≠ exponentMax F := bne_iff_ne.mp h
  simp only [isNaN, isInfinity, classify, if_neg he]
  split_ifs <;> exact ⟨rfl, rfl⟩

/-- A pattern of positive value has sign 0. -/
theorem signOf_eq_false_of_val_pos (F : Format) {w : Nat} (p : BitVec w) (h : 0 < val F p) : signOf F p = false := by
  rw [val_eq] at h
  cases hs : signOf F p with
  | false => rfl
  | true =>
    have hnonneg : (0 : ℚ) ≤ scaledMagnitude F p / 2 ^ unitExponent F := by positivity
    rw [hs, if_pos rfl, neg_one_mul, neg_div] at h
    linarith

theorem overflowThreshold_pos (F : Format) : 0 < overflowThreshold F := by
  have h : (1 : ℚ) < 2 ^ ((descriptor F).mantissaBits + 2) := one_lt_pow₀ (by norm_num) (by omega)
  exact div_pos (mul_pos (by linarith) (by positivity)) (by positivity)

/-- A zero of either sign is the result of rounding 0. -/
theorem roundsTo_zero (F : Format) {w : Nat} (p : BitVec w) (h : isFinite F p = true) (hz : val F p = 0) : RoundsTo F 0 p := by
  rw [RoundsTo, abs_zero, if_pos (overflowThreshold_pos F), ← hz]
  exact nearestEven_of_exact F p h

/-- Packing a sign and a magnitude rounded from `n / 2^k` units is rounding that number with that sign. -/
theorem roundsTo_pack64 (negative : Bool) (n k : Nat) :
    RoundsTo .binary64 ((if negative then -1 else 1) * ((n : ℚ) / (2 ^ k * 2 ^ unitExponent .binary64)))
      (pack64 negative (roundMagnitude .binary64 n k)) := by
  have h := roundsTo_roundMagnitude .binary64 (pack64 negative (roundMagnitude .binary64 n k)) n k
    (magnitudeOf_pack64 negative (roundMagnitude_binary64_lt n k))
  rwa [signOf_pack64] at h

/-- An integer is its sign times its magnitude. -/
theorem sign_mul_natAbs (r : Int) : (if decide (r < 0) then -1 else 1) * (r.natAbs : ℚ) = r := by
  rw [Nat.cast_natAbs]
  by_cases h : r < 0
  · simp [h, abs_of_neg]
  · simp [h, abs_of_nonneg (not_lt.mp h)]

/-- A NaN, an infinity and a zero give themselves; for a NaN and a zero that is the model's choice (log 10). -/
theorem fmul_eq_self {x : Word64} (y : Word64)
    (h : (isNaN .binary64 x || isInfinity .binary64 x || isZero .binary64 x) = true) : fmul x y = x :=
  if_pos h

theorem fmul_of_finite_nonzero {x : Word64} (y : Word64) (hf : isFinite .binary64 x = true) (hz : isZero .binary64 x = false) :
    fmul x y = pack64 (signOf .binary64 x)
      (roundMagnitude .binary64 (scaledMagnitude .binary64 x * scaledMagnitude .binary64 y) (unitExponent .binary64)) := by
  obtain ⟨hn, hi⟩ := not_nan_not_infinity_of_isFinite .binary64 x hf
  simp [fmul, hn, hi, hz]

/-- The product of a nonzero finite number and a positive one is the product of the counts of units, in units of the unit squared. -/
theorem roundsTo_fmul_of_nonzero {x y : Word64} (hf : isFinite .binary64 x = true) (hz : isZero .binary64 x = false)
    (hy : 0 < val .binary64 y) : RoundsTo .binary64 (val .binary64 x * val .binary64 y) (fmul x y) := by
  have hexact : val .binary64 x * val .binary64 y =
      (if signOf .binary64 x then -1 else 1) *
        (((scaledMagnitude .binary64 x * scaledMagnitude .binary64 y : Nat) : ℚ) /
          (2 ^ unitExponent .binary64 * 2 ^ unitExponent .binary64)) := by
    rw [val_eq .binary64 x, val_eq .binary64 y, signOf_eq_false_of_val_pos .binary64 y hy, if_neg Bool.false_ne_true, one_mul,
      div_mul_div_comm, mul_assoc, mul_div_assoc, Nat.cast_mul]
  rw [hexact, fmul_of_finite_nonzero y hf hz]
  exact roundsTo_pack64 _ _ _

end Sys2Proof.Machine
end

section
/-! The statements about the comparator's subtraction and multiplication (45_comparator.md R93). -/

namespace Sys2Proof.Machine

/-- Settles O46: the difference of the values is the integer difference of the counts of units, which `fsub` packs and rounds. -/
theorem fsubRoundsTheExactDifference : Obligations.FsubRoundsTheExactDifference := by
  intro x y _ _ _
  have hexact : val .binary64 x - val .binary64 y =
      (if decide (scaledValue .binary64 x - scaledValue .binary64 y < 0) then -1 else 1) *
        (((scaledValue .binary64 x - scaledValue .binary64 y).natAbs : ℚ) / (2 ^ 0 * 2 ^ unitExponent .binary64)) := by
    rw [← mul_div_assoc, sign_mul_natAbs, val, val, pow_zero, one_mul, ← sub_div, Int.cast_sub]
  rw [hexact]
  exact roundsTo_pack64 _ _ 0

/-- Settles O47: a zero is itself, and so is what is not finite; every other product is rounded once. -/
theorem fmulRoundsTheExactProduct : Obligations.FmulRoundsTheExactProduct := by
  intro x y _ hy
  refine ⟨fun hf => ?_, fun hi => fmul_eq_self y (by simp [hi]), fun hn => ?_⟩
  · cases hz : isZero .binary64 x with
    | true =>
      have hval : val .binary64 x = 0 := by
        rw [val_eq, (isZero_iff_scaledMagnitude .binary64 x hf).mp hz, Nat.cast_zero, mul_zero, zero_div]
      rw [fmul_eq_self y (by simp [hz]), hval, zero_mul]
      exact ⟨roundsTo_zero .binary64 x hf hval, rfl⟩
    | false =>
      refine ⟨roundsTo_fmul_of_nonzero hf hz hy, ?_⟩
      rw [fmul_of_finite_nonzero y hf hz, signOf_pack64]
  · rwa [fmul_eq_self y (by simp [hn])]

end Sys2Proof.Machine
end

section
/-! SUPPORT. ENC8 as truncation of the exact magnitude (44_float8_e4m3.md R83, R91): the magnitude it computes is the greatest
micro-float magnitude not above the input's. -/

namespace Sys2Proof.Machine

/-- The exact magnitude of a binary32 number with its leading one (R29). -/
theorem scaledMagnitude_binary32 (f : Word32) (h : exponentOf .binary32 f ≠ 0) :
    scaledMagnitude .binary32 f = (2 ^ 23 + mantissaOf .binary32 f) * 2 ^ (exponentOf .binary32 f - 1) :=
  if_neg h

theorem mantissaOf_binary32_lt (f : Word32) : mantissaOf .binary32 f < 2 ^ 23 :=
  Nat.mod_lt _ (Nat.two_pow_pos 23)

/-- The bits ENC8 takes from the mantissa are its top three (R83). -/
theorem topThreeBits_toNat (f : Word32) : (f.extractLsb' 20 3).toNat = mantissaOf .binary32 f / 2 ^ 20 := by
  rw [BitVec.extractLsb'_toNat, Nat.shiftRight_eq_div_pow]
  show f.toNat / 2 ^ 20 % 2 ^ 3 = f.toNat % 2 ^ 23 / 2 ^ 20
  omega

/-- The significand of ENC8's result below saturation: the top four bits of the input's, shifted right by what the exponent field
lacks to 121. `enc8Magnitude_of_lt` ties it to `enc8Magnitude`. -/
def enc8Significand (e m : Nat) : Nat :=
  (8 + m / 2 ^ 20) / 2 ^ (121 - e)

theorem enc8Significand_le {e m : Nat} (hm : m < 2 ^ 23) : enc8Significand e m ≤ 15 :=
  (Nat.div_le_self _ _).trans (by omega)

/-- From exponent field 121 on nothing is shifted out, and the leading one is there. -/
theorem enc8Significand_of_ge {e : Nat} (m : Nat) (he : 121 ≤ e) : enc8Significand e m = 8 + m / 2 ^ 20 := by
  rw [enc8Significand, Nat.sub_eq_zero_of_le he, pow_zero, Nat.div_one]

/-- A shift by more than three leaves nothing (R83). -/
theorem enc8Significand_eq_zero {e m : Nat} (hm : m < 2 ^ 23) (he : e < 118) : enc8Significand e m = 0 := by
  have : 2 ^ 4 ≤ 2 ^ (121 - e) := Nat.pow_le_pow_right (by norm_num) (by omega)
  exact Nat.div_eq_of_lt (by omega)

/-- Below saturation ENC8's subnormal and normal branches are one formula, the exponent counted from field 121 (R83). -/
theorem enc8Magnitude_of_lt {e m : Nat} (he : e < 135) (hm : m < 2 ^ 23) :
    enc8Magnitude e (m / 2 ^ 20) = (e - 121) * 2 ^ 3 + enc8Significand e m := by
  simp only [enc8Magnitude]
  split
  · rw [show (1 - ((e : Int) - 127 + 7)).toNat = 121 - e by omega, show e - 121 = 0 by omega, Nat.zero_mul, Nat.zero_add]
    split
    · exact (enc8Significand_eq_zero hm (by omega)).symm
    · rfl
  · rw [if_neg (by omega), enc8Significand_of_ge m (by omega)]
    omega

/-- The significand is the exact one rounded down: the exact `(2^23 + m) * 2^(e-1)` units of 2^-149 lie between it and the next one,
at the scale of the result's exponent in units of 2^-9. -/
theorem enc8Significand_brackets {e m : Nat} (he : e ≠ 0) :
    enc8Significand e m * 2 ^ (e - 121) * 2 ^ 140 ≤ (2 ^ 23 + m) * 2 ^ (e - 1) ∧
    (2 ^ 23 + m) * 2 ^ (e - 1) < (enc8Significand e m + 1) * 2 ^ (e - 121) * 2 ^ 140 := by
  have hfloor : enc8Significand e m = (2 ^ 23 + m) / 2 ^ (20 + (121 - e)) := by
    rw [enc8Significand, pow_add, ← Nat.div_div_eq_div_mul, show (2 ^ 23 + m) / 2 ^ 20 = 8 + m / 2 ^ 20 by omega]
  have hscale : ∀ q, q * 2 ^ (e - 121) * 2 ^ 140 = q * 2 ^ (20 + (121 - e)) * 2 ^ (e - 1) := by
    have hexp : e - 121 + 140 = 20 + (121 - e) + (e - 1) := by omega
    intro q
    rw [Nat.mul_assoc, ← pow_add 2 (e - 121) 140, hexp, pow_add 2 (20 + (121 - e)) (e - 1), Nat.mul_assoc]
  rw [hscale, hscale, hfloor]
  constructor
  · exact Nat.mul_le_mul_right _ (Nat.div_mul_le_self _ _)
  · refine Nat.mul_lt_mul_of_pos_right ?_ (Nat.two_pow_pos _)
    rw [Nat.mul_comm]
    exact Nat.lt_mul_div_succ _ (Nat.two_pow_pos _)

/-- The seven bits of ENC8's result below the sign, below saturation. -/
theorem magnitudeOf_enc8 (f : Word32) (he : exponentOf .binary32 f < 135) :
    magnitudeOf .e4m3 (enc8 f) =
      (exponentOf .binary32 f - 121) * 2 ^ 3 + enc8Significand (exponentOf .binary32 f) (mantissaOf .binary32 f) := by
  have hm := mantissaOf_binary32_lt f
  have hq := enc8Significand_le (e := exponentOf .binary32 f) hm
  have heq : magnitudeOf .e4m3 (enc8 f) =
      (BitVec.ofNat 7 (enc8Magnitude (exponentOf .binary32 f) (mantissaOf .binary32 f / 2 ^ 20))).toNat := by
    rw [← exponent32_toNat, ← topThreeBits_toNat]
    exact magnitudeOf_withSign .e4m3 _ _ rfl
  rw [heq, enc8Magnitude_of_lt he hm, BitVec.toNat_ofNat]
  exact Nat.mod_eq_of_lt (by omega)

/-- Below saturation ENC8's result is finite (R86). -/
theorem isFinite_enc8 (f : Word32) (he : exponentOf .binary32 f < 135) : isFinite .e4m3 (enc8 f) = true := by
  have hq := enc8Significand_le (e := exponentOf .binary32 f) (mantissaOf_binary32_lt f)
  rw [isFinite_iff, magnitudeOf_enc8 f he]
  show _ < 15 * 2 ^ 3
  omega

/-- The exact magnitude lies between ENC8's and the next pattern's. -/
theorem enc8_brackets (f : Word32) (he : exponentOf .binary32 f < 135) :
    patternValue 3 (magnitudeOf .e4m3 (enc8 f)) * 2 ^ 140 ≤ scaledMagnitude .binary32 f ∧
    scaledMagnitude .binary32 f < patternValue 3 (magnitudeOf .e4m3 (enc8 f) + 1) * 2 ^ 140 := by
  have hm := mantissaOf_binary32_lt f
  rw [magnitudeOf_enc8 f he]
  by_cases h0 : exponentOf .binary32 f = 0
  · have hn : scaledMagnitude .binary32 f = mantissaOf .binary32 f := if_pos h0
    rw [enc8Significand_eq_zero hm (by omega), h0, hn, show patternValue 3 ((0 - 121) * 2 ^ 3 + 0) = 0 from rfl,
      show patternValue 3 ((0 - 121) * 2 ^ 3 + 0 + 1) = 1 from rfl]
    omega
  · have hq := enc8Significand_le (e := exponentOf .binary32 f) hm
    have hq8 : 0 < exponentOf .binary32 f - 121 → 8 ≤ enc8Significand (exponentOf .binary32 f) (mantissaOf .binary32 f) := by
      intro hpos
      rw [enc8Significand_of_ge (e := exponentOf .binary32 f) _ (by omega)]
      omega
    rw [scaledMagnitude_binary32 f h0, Nat.add_assoc, patternValue_of_significand 3 _ _ (by omega) hq8,
      patternValue_of_significand 3 _ _ (by omega) (fun hpos => (hq8 hpos).trans (Nat.le_succ _))]
    exact enc8Significand_brackets h0

/-- A magnitude below 256 has an exponent field below 135 (R86). -/
theorem exponent_lt_of_val_lt_256 (f : Word32) (h : |val .binary32 f| < 256) : exponentOf .binary32 f < 135 := by
  by_contra hge
  have hn := scaledMagnitude_binary32 f (by omega)
  have hbig : 2 ^ 23 * 2 ^ 134 ≤ scaledMagnitude .binary32 f :=
    hn ▸ Nat.mul_le_mul (Nat.le_add_right _ _) (Nat.pow_le_pow_right (by norm_num) (by omega))
  rw [abs_val, show unitExponent .binary32 = 149 from rfl, div_lt_iff₀ (by positivity)] at h
  have : ((2 ^ 23 * 2 ^ 134 : Nat) : ℚ) ≤ scaledMagnitude .binary32 f := Nat.cast_le.mpr hbig
  norm_num at this h
  linarith

/-- ENC8 keeps the sign (R83). -/
theorem signOf_enc8 (f : Word32) : signOf .e4m3 (enc8 f) = signOf .binary32 f :=
  (signOf_withSign .e4m3 _ _ rfl).trans (sign32_getLsbD f)

/-- Magnitudes of two formats are compared in the units of the finer one, `2^k` times smaller. -/
theorem abs_val_le_abs_val_iff (F G : Format) {v w k : Nat} (p : BitVec v) (q : BitVec w) (hk : unitExponent G = unitExponent F + k) :
    |val F p| ≤ |val G q| ↔ scaledMagnitude F p * 2 ^ k ≤ scaledMagnitude G q := by
  rw [abs_val, abs_val, hk, pow_add, div_le_div_iff₀ (by positivity) (by positivity), ← Nat.cast_le (α := ℚ), Nat.cast_mul,
    Nat.cast_pow, Nat.cast_ofNat]
  have hpos : (0 : ℚ) < 2 ^ unitExponent F := by positivity
  rw [show (scaledMagnitude F p : ℚ) * (2 ^ unitExponent F * 2 ^ k) = scaledMagnitude F p * 2 ^ k * 2 ^ unitExponent F by ring]
  exact mul_le_mul_iff_left₀ hpos

/-- Values of one sign have a nonnegative product. -/
theorem val_mul_val_nonneg (F G : Format) {v w : Nat} (p : BitVec v) (q : BitVec w) (h : signOf F p = signOf G q) :
    0 ≤ val F p * val G q := by
  rw [val_eq, val_eq, h]
  split
  · rw [neg_one_mul, neg_one_mul, neg_div, neg_div, neg_mul_neg]; positivity
  · positivity

/-- Finite input below saturation: ENC8 truncates (R91). -/
theorem towardZero_enc8 (f : Word32) (he : exponentOf .binary32 f < 135) :
    TowardZero .e4m3 (val .binary32 f) (enc8 f) := by
  obtain ⟨hlow, hhigh⟩ := enc8_brackets f he
  have hunits : unitExponent .binary32 = unitExponent .e4m3 + 140 := rfl
  have hvalue : ∀ q : Word8, scaledMagnitude .e4m3 q = patternValue 3 (magnitudeOf .e4m3 q) := scaledMagnitude_eq .e4m3
  refine ⟨isFinite_enc8 f he, ?_, ?_, fun q _ hq => ?_⟩
  · rwa [abs_val_le_abs_val_iff _ _ _ _ hunits, hvalue]
  · exact val_mul_val_nonneg _ _ _ _ (signOf_enc8 f).symm
  · rw [abs_val_le_abs_val_iff _ _ _ _ hunits, hvalue] at hq
    have hbelow : magnitudeOf .e4m3 q < magnitudeOf .e4m3 (enc8 f) + 1 :=
      (patternValue_strictMono 3).lt_iff_lt.mp (lt_of_mul_lt_mul_right' (hq.trans_lt hhigh))
    rw [abs_val_le_abs_val_iff .e4m3 .e4m3 (k := 0) _ _ rfl, pow_zero, mul_one, hvalue, hvalue]
    exact (patternValue_strictMono 3).monotone (Nat.le_of_lt_succ hbelow)

end Sys2Proof.Machine
end

section
/-! The statement about ENC8's truncation (44_float8_e4m3.md R91). -/

namespace Sys2Proof.Machine

/-- Settles O36: below 256 the exponent field is below saturation, where `towardZero_enc8` holds. -/
theorem enc8TruncatesTowardZero : Obligations.Enc8TruncatesTowardZero := by
  intro f s _ hlt
  exact ⟨enc8 f, rfl, signOf_enc8 f, towardZero_enc8 f (exponent_lt_of_val_lt_256 f hlt)⟩

end Sys2Proof.Machine
end

section
/-! SUPPORT. ENCBF16's addition of one to the truncated pattern is the model's rounding to nearest even, of the whole pattern and so of the
magnitude (43_bfloat16.md R75, R78). -/

namespace Sys2Proof.Machine

/-- An even multiple of the step passes through rounding unchanged. -/
theorem roundShift_add_even (a n sh : Nat) : roundShift (2 * a * 2 ^ sh + n) sh = 2 * a + roundShift n sh := by
  have hdiv : (2 * a * 2 ^ sh + n) / 2 ^ sh = 2 * a + n / 2 ^ sh := by
    rw [Nat.add_comm, Nat.add_mul_div_right _ _ (Nat.two_pow_pos sh), Nat.add_comm]
  simp only [roundShift, hdiv, Nat.mul_add_mod', Nat.mul_add_mod]
  split <;> omega

/-- Rounding does not depend on the scale. -/
theorem roundShift_mul_two_pow (n d : Nat) {sh : Nat} (hsh : 0 < sh) : roundShift (n * 2 ^ d) (sh + d) = roundShift n sh := by
  have hd := Nat.two_pow_pos d
  have hhalf : 2 ^ (sh + d - 1) = 2 ^ (sh - 1) * 2 ^ d := by rw [← pow_add, show sh - 1 + d = sh + d - 1 by omega]
  simp only [roundShift, pow_add 2 sh d, hhalf, Nat.mul_div_mul_right _ _ hd, Nat.mul_mod_mul_right,
    Nat.mul_lt_mul_right hd, Nat.mul_left_inj hd.ne']

/-- Rounding at most carries one above truncation. -/
theorem roundShift_le (n sh : Nat) : roundShift n sh ≤ n / 2 ^ sh + 1 := by
  simp only [roundShift]
  split <;> omega

/-- The third case of ENCBF16 rounds the 32-bit pattern, as a number, at bit 16 (R75). -/
theorem encbf16Round_toNat (f : Word32) : (encbf16Round f).toNat = roundShift f.toNat 16 % 2 ^ 16 := by
  have hf := f.isLt
  have ht : (f.extractLsb' 16 16).toNat = f.toNat / 2 ^ 16 := by
    rw [BitVec.extractLsb'_toNat, Nat.shiftRight_eq_div_pow, Nat.mod_eq_of_lt (by omega)]
  have hlow : (f.extractLsb' 0 16).toNat = f.toNat % 2 ^ 16 := by
    rw [BitVec.extractLsb'_toNat, Nat.shiftRight_zero]
  have hodd : (f.extractLsb' 16 16).getLsbD 0 = true ↔ f.toNat / 2 ^ 16 % 2 = 1 := by
    rw [← ht, BitVec.getLsbD, Nat.testBit_zero, decide_eq_true_iff]
  simp only [encbf16Round, roundShift, gt_iff_lt, BitVec.lt_def, ← BitVec.toNat_inj, hlow, hodd, BitVec.toNat_ofNat]
  split
  · rw [BitVec.toNat_add, ht, if_pos (by assumption)]; rfl
  · rw [ht, if_neg (by assumption), Nat.mod_eq_of_lt (by omega)]

/-- The bits below the sign of a binary32 pattern. -/
theorem toNat_and_magnitudeMask (f : Word32) : (f &&& 0x7FFFFFFF#32).toNat = magnitudeOf .binary32 f := by
  rw [BitVec.toNat_and]
  exact Nat.and_two_pow_sub_one_eq_mod f.toNat 31

/-- The exponent field under ENCBF16's mask (R75). -/
theorem exponent32_and_exponentMask (f : Word32) : exponent32 (f &&& 0x7F800000#32) = exponent32 f := by
  rw [exponent32, BitVec.extractLsb'_and]
  exact BitVec.and_allOnes

/-- A normal pattern has neither the least nor the greatest exponent field (R30). -/
theorem exponentOf_of_normal (F : Format) {w : Nat} (p : BitVec w) (h : classify F p = .normal) :
    exponentOf F p ≠ 0 ∧ exponentOf F p < exponentMax F := by
  have hle := exponentOf_lt F p
  unfold classify at h
  split_ifs at h
  omega

/-- Normal inputs take the third case of ENCBF16 (R75). -/
theorem encbf16_of_normal (f : Word32) (h : classify .binary32 f = .normal) : encbf16 f = encbf16Round f := by
  obtain ⟨h0, hmax⟩ := exponentOf_of_normal .binary32 f h
  have hfinite : magnitudeOf .binary32 f < 255 * 2 ^ 23 := (isFinite_iff .binary32 f).mp (bne_iff_ne.mpr hmax.ne)
  have hnan : ¬ (f &&& 0x7FFFFFFF#32) > 0x7F800000#32 := by
    rw [gt_iff_lt, BitVec.lt_def, toNat_and_magnitudeMask]
    exact hfinite.le.not_gt
  have hzero : ¬ (f &&& 0x7F800000#32) = 0 := by
    intro hz
    have he : exponent32 f = 0 := by rw [← exponent32_and_exponentMask, hz]; rfl
    exact h0 (by rw [← exponent32_toNat, he]; rfl)
  rw [encbf16, if_neg hnan, if_neg hzero]

/-- The sign of a pattern of the format's width is its top bit. -/
theorem signOf_eq_decide (F : Format) {w : Nat} (p : BitVec w) (hw : (descriptor F).totalBits = w) :
    signOf F p = decide (2 ^ (w - 1) ≤ p.toNat) := by
  rw [signOf, hw, ← BitVec.msb_eq_getLsbD_last, BitVec.msb_eq_decide]

/-- A binary32 pattern of nonzero exponent field as a number: its significand, below an even multiple of 2^16 (R24). -/
theorem toNat_eq_even_add_significand (f : Word32) (h0 : exponentOf .binary32 f ≠ 0) :
    f.toNat = 2 * (f.toNat / 2 ^ 31 * 2 ^ 14 + (exponentOf .binary32 f - 1) * 2 ^ 6) * 2 ^ 16 + (2 ^ 23 + mantissaOf .binary32 f) := by
  have he : exponentOf .binary32 f = f.toNat / 2 ^ 23 % 2 ^ 8 := rfl
  have hm : mantissaOf .binary32 f = f.toNat % 2 ^ 23 := rfl
  omega

/-- The magnitude ENCBF16 gives a normal input of exponent field `e` and mantissa field `m`: the significand rounded to eight bits, its
carry running into the exponent (R79). The lemmas below tie it to `encbf16` and to `roundMagnitude`. -/
def bf16RoundedMagnitude (e m : Nat) : Nat :=
  (e - 1) * 2 ^ 7 + roundShift (2 ^ 23 + m) 16

/-- The carry reaches the infinity's magnitude at most (R79). -/
theorem bf16RoundedMagnitude_le {e m : Nat} (he : e < 255) (hm : m < 2 ^ 23) : bf16RoundedMagnitude e m ≤ 255 * 2 ^ 7 := by
  have := roundShift_le (2 ^ 23 + m) 16
  unfold bf16RoundedMagnitude
  omega

/-- For a normal input it is the rounding to bfloat16 of the exact magnitude, whose unit is 2^16 times smaller (R12). -/
theorem roundMagnitude_bfloat16_of_normal {e m : Nat} (he : e < 255) (hm : m < 2 ^ 23) :
    roundMagnitude .bfloat16 ((2 ^ 23 + m) * 2 ^ (e - 1)) 16 = bf16RoundedMagnitude e m := by
  have hmsb : msb ((2 ^ 23 + m) * 2 ^ (e - 1)) = 23 + (e - 1) := by
    have hpos := Nat.two_pow_pos (e - 1)
    rw [msb, Nat.log2_eq_iff (Nat.mul_pos (by omega) hpos).ne', show 23 + (e - 1) + 1 = 24 + (e - 1) by omega, pow_add 2 23,
      pow_add 2 24]
    exact ⟨Nat.mul_le_mul_right _ (by omega), Nat.mul_lt_mul_of_pos_right (by omega) hpos⟩
  rw [roundMagnitude_eq, roundPattern, hmsb]
  show min ((23 + (e - 1) - (16 + 7)) * 2 ^ 7 + roundShift _ (16 + (23 + (e - 1) - (16 + 7)))) (255 * 2 ^ 7) = _
  rw [show 23 + (e - 1) - (16 + 7) = e - 1 by omega, roundShift_mul_two_pow _ _ (by norm_num)]
  exact min_eq_left (bf16RoundedMagnitude_le he hm)

/-- ENCBF16 of a normal number: the input's sign above the rounded magnitude (R75, R79). -/
theorem encbf16_toNat_of_normal (f : Word32) (h : classify .binary32 f = .normal) :
    (encbf16 f).toNat =
      f.toNat / 2 ^ 31 * 2 ^ 15 + bf16RoundedMagnitude (exponentOf .binary32 f) (mantissaOf .binary32 f) := by
  obtain ⟨h0, hmax⟩ := exponentOf_of_normal .binary32 f h
  have hle := bf16RoundedMagnitude_le hmax (mantissaOf_binary32_lt f)
  have hround : roundShift f.toNat 16 =
      f.toNat / 2 ^ 31 * 2 ^ 15 + bf16RoundedMagnitude (exponentOf .binary32 f) (mantissaOf .binary32 f) := by
    conv_lhs => rw [toNat_eq_even_add_significand f h0, roundShift_add_even]
    rw [bf16RoundedMagnitude]
    omega
  have hf := f.isLt
  rw [encbf16_of_normal f h, encbf16Round_toNat, hround]
  exact Nat.mod_eq_of_lt (by omega)

/-- ENCBF16 keeps the sign of a normal number (R79). -/
theorem signOf_encbf16_of_normal (f : Word32) (h : classify .binary32 f = .normal) :
    signOf .bfloat16 (encbf16 f) = signOf .binary32 f := by
  have hle := bf16RoundedMagnitude_le (exponentOf_of_normal .binary32 f h).2 (mantissaOf_binary32_lt f)
  rw [signOf_eq_decide .bfloat16 (encbf16 f) rfl, signOf_eq_decide .binary32 f rfl, encbf16_toNat_of_normal f h, decide_eq_decide]
  omega

/-- ENCBF16 rounds the magnitude of a normal number (R78). -/
theorem magnitudeOf_encbf16_of_normal (f : Word32) (h : classify .binary32 f = .normal) :
    magnitudeOf .bfloat16 (encbf16 f) = roundMagnitude .bfloat16 (scaledMagnitude .binary32 f) 16 := by
  obtain ⟨h0, hmax⟩ := exponentOf_of_normal .binary32 f h
  have hm := mantissaOf_binary32_lt f
  have hle := bf16RoundedMagnitude_le hmax hm
  rw [scaledMagnitude_binary32 f h0, roundMagnitude_bfloat16_of_normal hmax hm]
  show (encbf16 f).toNat % 2 ^ 15 = _
  rw [encbf16_toNat_of_normal f h]
  omega

end Sys2Proof.Machine
end

section
/-! The statement about ENCBF16's rounding (43_bfloat16.md R75, R78, R79). -/

namespace Sys2Proof.Machine

/-- Settles O30: the result has the input's sign and the magnitude rounded from its exact value, so `roundsTo_roundMagnitude` applies. -/
theorem encBf16RoundsToNearestEven : Obligations.EncBf16RoundsToNearestEven := by
  intro f s h
  refine ⟨encbf16 f, rfl, signOf_encbf16_of_normal f h, ?_⟩
  have hval : val .binary32 f = (if signOf .bfloat16 (encbf16 f) then -1 else 1) *
      ((scaledMagnitude .binary32 f : ℚ) / (2 ^ 16 * 2 ^ unitExponent .bfloat16)) := by
    rw [signOf_encbf16_of_normal f h, val_eq, mul_div_assoc, ← pow_add]
    rfl
  rw [hval]
  exact roundsTo_roundMagnitude .bfloat16 (encbf16 f) _ 16 (magnitudeOf_encbf16_of_normal f h)

end Sys2Proof.Machine
end

section
/-! The statement about the state after power-up (10_state.md R32, 70_reset_and_hazards.md R113). -/

namespace Sys2Proof.Machine

/-- The ports at reset ask for ENC32 of 0 (log 1), on which CORE gives 0. -/
theorem coreOutput_resetInputs : coreOutput resetInputs = some 0 :=
  coreOutput_of_decode_ok (i := .enc32 0) rfl

/-- Settles O16: `y` at reset is CORE's value for the reset inputs, and the record is empty. -/
theorem resetHasRunInvariant : Obligations.ResetHasRunInvariant where
  settled _ hv := Option.some.inj (coreOutput_resetInputs.symm.trans hv)
  transcriptRight _ he := absurd he List.not_mem_nil

end Sys2Proof.Machine
end

section
/-! SUPPORT. The class of a pattern from its two fields as bit vectors (10_state.md R30), and the class of what each decoder returns
(R31). -/

namespace Sys2Proof.Machine

/-- The class that an exponent and a mantissa field make up (R30); `classify_eq_fieldClass` ties it to `classify`. -/
def fieldClass {a b : Nat} (e : BitVec a) (m : BitVec b) : FloatClass :=
  if e = 0 then if m = 0 then .zero else .subnormal
  else if e = BitVec.allOnes a then if m = 0 then .infinity else .nan
  else .normal

theorem classify_eq_fieldClass (F : Format) {a b w : Nat} {p : BitVec w} {e : BitVec a} {m : BitVec b}
    (ha : a = (descriptor F).exponentBits) (he : e.toNat = exponentOf F p) (hm : m.toNat = mantissaOf F p) :
    classify F p = fieldClass e m := by
  simp only [classify, fieldClass, exponentMax, ← he, ← hm, ← ha, ← BitVec.toNat_inj, BitVec.toNat_allOnes, BitVec.ofNat_eq_ofNat,
    BitVec.toNat_ofNat, Nat.zero_mod]

theorem classify_binary32 (p : Word32) : classify .binary32 p = fieldClass (exponent32 p) (mantissa32 p) :=
  classify_eq_fieldClass .binary32 rfl (exponent32_toNat p) (mantissa32_toNat p)

theorem classify_binary16 (h : Word16) : classify .binary16 h = fieldClass (exponent16 h) (mantissa16 h) :=
  classify_eq_fieldClass .binary16 rfl (exponent16_toNat h) (mantissa16_toNat h)

theorem classify_e4m3 (p : Word8) : classify .e4m3 p = fieldClass (exponent8 p) (mantissa8 p) :=
  classify_eq_fieldClass .e4m3 rfl (exponent8_toNat p) (mantissa8_toNat p)

/-- The exponent and the mantissa field of a pattern packed from a sign and its two fields. -/
theorem fields_withSign_append (F : Format) {a b : Nat} (s : BitVec 1) (e : BitVec a) (m : BitVec b)
    (ha : a = (descriptor F).exponentBits) (hb : b = (descriptor F).mantissaBits) :
    exponentOf F (withSign s (e ++ m)) = e.toNat ∧ mantissaOf F (withSign s (e ++ m)) = m.toNat := by
  have hmag : magnitudeOf F (withSign s (e ++ m)) = m.toNat + e.toNat * 2 ^ b := by
    rw [magnitudeOf_withSign F s (e ++ m) (by omega), BitVec.toNat_append, ← Nat.shiftLeft_add_eq_or_of_lt m.isLt,
      Nat.shiftLeft_eq, Nat.add_comm]
  rw [← magnitudeOf_div, ← magnitudeOf_mod, hmag, ← hb, Nat.add_mul_div_right _ _ (Nat.two_pow_pos b),
    Nat.add_mul_mod_self_right, Nat.div_eq_of_lt m.isLt, Nat.mod_eq_of_lt m.isLt]
  exact ⟨Nat.zero_add _, rfl⟩

/-- The class of a binary32 pattern packed from a sign and its two fields. -/
theorem classify_withSign_append (s : BitVec 1) (e : BitVec 8) (m : BitVec 23) :
    classify .binary32 (withSign s (e ++ m)) = fieldClass e m :=
  have ⟨he, hm⟩ := fields_withSign_append .binary32 s e m rfl rfl
  classify_eq_fieldClass .binary32 rfl he.symm hm.symm

/-- A biased exponent strictly between 0 and 255 packs to a normal number, whatever the mantissa. -/
theorem classify_withSign_of_between (s : BitVec 1) {n : Nat} (m : BitVec 23) (h0 : 0 < n) (hn : n < 255) :
    classify .binary32 (withSign s (BitVec.ofNat 8 n ++ m)) = .normal := by
  have hfield : (BitVec.ofNat 8 n).toNat = n := Nat.mod_eq_of_lt (by omega)
  have hzero : BitVec.ofNat 8 n ≠ 0 := fun h => h0.ne' (hfield.symm.trans (congrArg BitVec.toNat h))
  have hones : BitVec.ofNat 8 n ≠ BitVec.allOnes 8 := fun h => hn.ne (hfield.symm.trans (congrArg BitVec.toNat h))
  exact (classify_withSign_append s _ m).trans ((if_neg hzero).trans (if_neg hones))

theorem classify_withSign_zero (s : BitVec 1) : classify .binary32 (withSign s 0#31) = .zero :=
  classify_withSign_append s 0#8 0#23

theorem classify_withSign_infinity (s : BitVec 1) : classify .binary32 (withSign s 0x7F800000#31) = .infinity :=
  classify_withSign_append s 0xFF#8 0#23

theorem classify_withSign_nan (s : BitVec 1) {m : BitVec 23} (hm : m ≠ 0) :
    classify .binary32 (withSign s (0xFF#8 ++ m)) = .nan :=
  (classify_withSign_append s 0xFF#8 m).trans (if_neg hm)

/-- The position of the leading one of a nonzero field lies below the field's width. -/
theorem msb_lt_width {b : Nat} {m : BitVec b} (hm : m ≠ 0) : msb m.toNat < b :=
  (Nat.log2_lt fun h => hm (BitVec.eq_of_toNat_eq h)).mpr m.isLt

/-- The quiet bit is set in the mantissa of DEC16's NaN (R72). -/
theorem dec16NaN_ne_zero (m : BitVec 10) : dec16NaN m ≠ 0 := by
  intro h
  have hquiet : (dec16NaN m).getLsbD 22 = true := by
    rw [dec16NaN, BitVec.getLsbD_or]
    rfl
  rw [h] at hquiet
  cases hquiet

/-- DEC16 turns subnormals into normals and keeps every other class (R31, R70). -/
theorem classify_dec16 (h : Word16) :
    classify .binary32 (dec16 h) = if classify .binary16 h = .subnormal then .normal else classify .binary16 h := by
  rw [classify_binary16, dec16, dec16Magnitude, fieldClass]
  by_cases he0 : exponent16 h = 0
  · by_cases hm0 : mantissa16 h = 0
    · simp only [if_pos he0, if_pos hm0, reduceCtorEq, if_false]
      exact classify_withSign_zero _
    · simp only [if_pos he0, if_neg hm0, if_true]
      have hk := msb_lt_width hm0
      exact classify_withSign_of_between _ _ (by omega) (by omega)
  · by_cases he31 : exponent16 h = 31
    · have hones : exponent16 h = BitVec.allOnes 5 := he31
      by_cases hm0 : mantissa16 h = 0
      · simp only [if_neg he0, if_pos he31, if_pos hones, if_pos hm0, reduceCtorEq, if_false]
        exact classify_withSign_infinity _
      · simp only [if_neg he0, if_pos he31, if_pos hones, if_neg hm0, reduceCtorEq, if_false]
        exact classify_withSign_nan _ (dec16NaN_ne_zero _)
    · have hones : exponent16 h ≠ BitVec.allOnes 5 := he31
      simp only [if_neg he0, if_neg he31, if_neg hones, reduceCtorEq, if_false]
      have hlt := (exponent16 h).isLt
      exact classify_withSign_of_between _ _ (by omega) (by omega)

/-- DEC8 turns subnormals into normals and class NaN into infinities, and keeps every other class (R31, R88). -/
theorem classify_dec8 (p : Word8) :
    classify .binary32 (dec8 p) = match classify .e4m3 p with | .nan => .infinity | .subnormal => .normal | k => k := by
  rw [classify_e4m3, dec8, dec8Magnitude, fieldClass]
  by_cases he0 : exponent8 p = 0
  · by_cases hm0 : mantissa8 p = 0
    · simp only [if_pos he0, if_pos hm0]
      exact classify_withSign_zero _
    · simp only [if_pos he0, if_neg hm0]
      have hk := msb_lt_width hm0
      exact classify_withSign_of_between _ _ (by omega) (by omega)
  · by_cases he15 : exponent8 p = 15
    · have hones : exponent8 p = BitVec.allOnes 4 := he15
      simp only [if_neg he0, if_pos he15, if_pos hones]
      refine (classify_withSign_infinity _).trans ?_
      split_ifs <;> rfl
    · have hones : exponent8 p ≠ BitVec.allOnes 4 := he15
      simp only [if_neg he0, if_neg he15, if_neg hones]
      have hlt := (exponent8 p).isLt
      exact classify_withSign_of_between _ _ (by omega) (by omega)

/-- Sixteen zeros below a bfloat16 pattern widen it: the exponent field is the same, the mantissa field stands at the top (R80). -/
theorem fields_append_zeros (p : Word16) :
    exponentOf .binary32 (p ++ 0#16) = exponentOf .bfloat16 p ∧ mantissaOf .binary32 (p ++ 0#16) = mantissaOf .bfloat16 p * 2 ^ 16 := by
  have hwide : (p ++ 0#16).toNat = p.toNat * 2 ^ 16 := by
    rw [BitVec.toNat_append, BitVec.toNat_ofNat, Nat.zero_mod, Nat.or_zero, Nat.shiftLeft_eq]
  unfold exponentOf mantissaOf
  rw [hwide]
  show p.toNat * 2 ^ 16 / 2 ^ 23 % 2 ^ 8 = p.toNat / 2 ^ 7 % 2 ^ 8 ∧ p.toNat * 2 ^ 16 % 2 ^ 23 = p.toNat % 2 ^ 7 * 2 ^ 16
  omega

/-- Widening keeps the class. -/
theorem classify_append_zeros (p : Word16) : classify .binary32 (p ++ 0#16) = classify .bfloat16 p := by
  obtain ⟨he, hm⟩ := fields_append_zeros p
  have hzero : mantissaOf .bfloat16 p * 2 ^ 16 = 0 ↔ mantissaOf .bfloat16 p = 0 := by omega
  simp only [classify, he, hm, hzero]
  rfl

/-- Setting the quiet bit of a pattern of exponent field 255 makes a NaN (R81). -/
theorem classify_or_quietBit {r : Word32} (he : exponent32 r = 0xFF#8) : classify .binary32 (r ||| 0x00400000#32) = .nan := by
  have hexp : exponent32 (r ||| 0x00400000#32) = BitVec.allOnes 8 := by
    have hor : exponent32 (r ||| 0x00400000#32) = exponent32 r ||| exponent32 0x00400000#32 := BitVec.extractLsb'_or
    rw [hor, he]
    rfl
  have hmant : mantissa32 (r ||| 0x00400000#32) ≠ 0 := by
    have hor : mantissa32 (r ||| 0x00400000#32) = mantissa32 r ||| 0x00400000#23 := BitVec.extractLsb'_or
    rw [hor]
    exact fun h => absurd (BitVec.or_eq_zero_iff.mp h).2 (by decide)
  rw [classify_binary32, hexp]
  exact if_neg hmant

/-- A pattern of which only the sign is left is a zero. -/
theorem classify_and_signBit (r : Word32) : classify .binary32 (r &&& 0x80000000#32) = .zero := by
  have hexp : exponent32 (r &&& 0x80000000#32) = 0 := by
    rw [exponent32, BitVec.extractLsb'_and]
    exact BitVec.and_zero
  have hmant : mantissa32 (r &&& 0x80000000#32) = 0 := by
    rw [mantissa32, BitVec.extractLsb'_and]
    exact BitVec.and_zero
  rw [classify_binary32, hexp, hmant]
  rfl

/-- DECBF16 turns subnormals into zeros and keeps every other class (R31, R80). -/
theorem classify_decbf16 (p : Word16) :
    classify .binary32 (decbf16 p) = if classify .bfloat16 p = .subnormal then .zero else classify .bfloat16 p := by
  rw [← classify_append_zeros, decbf16]
  have hclass := classify_binary32 (p ++ 0#16)
  rw [fieldClass] at hclass
  by_cases he255 : exponent32 (p ++ 0#16) = 0xFF#8
  · have he0 : exponent32 (p ++ 0#16) ≠ 0 := by
      rw [he255]
      decide
    have hones : exponent32 (p ++ 0#16) = BitVec.allOnes 8 := he255
    rw [if_neg he0, if_pos hones] at hclass
    by_cases hm0 : mantissa32 (p ++ 0#16) = 0
    · rw [if_pos hm0] at hclass
      simp only [if_pos he255, if_pos hm0, hclass, reduceCtorEq, if_false]
    · rw [if_neg hm0] at hclass
      simp only [if_pos he255, if_neg hm0, hclass, classify_or_quietBit he255, reduceCtorEq, if_false]
  · have hones : exponent32 (p ++ 0#16) ≠ BitVec.allOnes 8 := he255
    by_cases he0 : exponent32 (p ++ 0#16) = 0
    · rw [if_pos he0] at hclass
      rw [if_neg he255, if_pos he0, classify_and_signBit, hclass]
      by_cases hm0 : mantissa32 (p ++ 0#16) = 0
      · rw [if_pos hm0]; rfl
      · rw [if_neg hm0]; rfl
    · rw [if_neg he0, if_neg hones] at hclass
      simp only [if_neg he255, if_neg he0, hclass, reduceCtorEq, if_false]

end Sys2Proof.Machine
end

section
/-! The statement about the classes the decoders return (10_state.md R31). -/

namespace Sys2Proof.Machine

/-- Settles O43: each decoder drives its result, whose class is said by its own lemma. -/
theorem decodersChangeClassOnlyAsStated : Obligations.DecodersChangeClassOnlyAsStated :=
  fun h p _ => ⟨decbf16 h, dec8 p, dec16 h, rfl, rfl, rfl, classify_decbf16 h, classify_dec8 p, classify_dec16 h⟩

end Sys2Proof.Machine
end

section
/-! SUPPORT. The decoder against the encoder (30_encoding.md R45 to R47): what decoding an encoded operation gives, what of a command
stands in the encoding of what it decodes to, and what the code alone fixes. -/

namespace Sys2Proof

/-- An operand right-justified in a wider port is read back from the port's low bits. -/
theorem extractLsb'_setWidth_self {w v : Nat} (x : BitVec w) (h : w ≤ v) : (x.setWidth v).extractLsb' 0 w = x := by
  rw [← BitVec.setWidth_eq_extractLsb' h, BitVec.setWidth_setWidth_of_le x h, BitVec.setWidth_eq]

/-- The low bits of a port as a number. -/
theorem toNat_extractLsb'_zero {w v : Nat} (x : BitVec v) : (x.extractLsb' 0 w).toNat = x.toNat % 2 ^ w := by
  rw [BitVec.extractLsb'_toNat, Nat.shiftRight_zero]

/-- The decoder reads back the operation that the encoder wrote (R46, R47). -/
theorem decode_encode (i : Instr) : decode (encode i) = .ok i := by
  cases i with
  | isclose a b rel absTol => rfl
  | enc32 x | dec32 x | enc16 x | dec16 x | encbf16 x | decbf16 x | enc8 x | dec8 x | lookup x =>
    simp [decode, encode, oneOperand, extractLsb'_setWidth_self]

/-- The encoder loses nothing of an operation. -/
theorem encode_injective : Function.Injective encode := by
  intro i i' h
  have hsame : (.ok i : Except DecodeError Instr) = .ok i' := by rw [← decode_encode i, h, decode_encode i']
  exact Except.ok.inj hsame

/-- No operation reads more of `a` than there is. -/
theorem operandBits_le (i : Instr) : i.operandBits ≤ 64 := by
  cases i <;> simp [Instr.operandBits]

/-- The encoding of what a command decodes to: for ISCLOSE the command itself, for any other operation its code and the operand bits
of `a`, the rest cleared (R45, R47; log 12). -/
theorem encode_of_decode_ok {c : Command} {i : Instr} (h : decode c = .ok i) :
    (c.op = 0x9 ∧ i.operandBits = 64 ∧ encode i = c) ∨
    (c.op ≠ 0x9 ∧ encode i = oneOperand c.op (c.a.extractLsb' 0 i.operandBits)) := by
  obtain ⟨op, a, b, rel, absTol⟩ := c
  -- The decoder matches the code as a number: with `n` for it, each case has its code as a literal.
  obtain ⟨n, hn⟩ : ∃ n, op.toNat = n := ⟨_, rfl⟩
  obtain rfl : op = BitVec.ofNat 4 n := by rw [← hn, BitVec.ofNat_toNat, BitVec.setWidth_eq]
  simp only [decode, hn] at h
  split at h <;> cases h
  case h_10 => exact .inl ⟨rfl, rfl, rfl⟩
  all_goals exact .inr ⟨by simp, rfl⟩

/-- Commands with one code decode to operations of one mnemonic, which read as many bits of `a` (R46, R51). -/
theorem decode_ok_of_op_eq {c c' : Command} {i : Instr} (hop : c'.op = c.op) (h : decode c = .ok i) :
    ∃ i', decode c' = .ok i' ∧ i'.mnemonic = i.mnemonic ∧ i'.operandBits = i.operandBits := by
  unfold decode at h ⊢
  rw [hop]
  split at h <;> cases h <;> exact ⟨_, rfl, rfl, rfl⟩

/-- A command with the code of a refused one is refused with it (R49, R51). -/
theorem decode_error_of_op_eq {c c' : Command} {e : DecodeError} (hop : c'.op = c.op) (h : decode c = .error e) :
    decode c' = .error e := by
  rcases decode_cases c with ⟨-, i, hi⟩ | ⟨hge, herr⟩
  · rw [hi] at h
    cases h
  · rcases decode_cases c' with ⟨hlt, -⟩ | ⟨-, herr'⟩
    · exact absurd hlt (Nat.not_lt.mpr (hop ▸ hge))
    · rw [herr', hop, ← herr, h]

/-- A command that has the code of another and the bits that the other's operation reads decodes to the same operation (R47). -/
theorem decode_eq_of_read_bits_eq {c c' : Command} {i : Instr} (h : decode c = .ok i) (hop : c'.op = c.op)
    (ha : c'.a.toNat % 2 ^ i.operandBits = c.a.toNat % 2 ^ i.operandBits)
    (hports : c.op = 0x9 → c'.b = c.b ∧ c'.rel = c.rel ∧ c'.absTol = c.absTol) : decode c' = .ok i := by
  rcases encode_of_decode_ok h with ⟨h9, hwide, -⟩ | ⟨h9, hi⟩
  · have hwhole : c'.a = c.a := by
      rw [hwide, Nat.mod_eq_of_lt c'.a.isLt, Nat.mod_eq_of_lt c.a.isLt] at ha
      exact BitVec.eq_of_toNat_eq ha
    have hsame : c' = c := by
      obtain ⟨hb, hrel, habs⟩ := hports h9
      show Command.mk c'.op c'.a c'.b c'.rel c'.absTol = c
      rw [hop, hwhole, hb, hrel, habs]
    rw [hsame, h]
  · obtain ⟨i', h', -, hbits⟩ := decode_ok_of_op_eq hop h
    have hlow : c'.a.extractLsb' 0 i.operandBits = c.a.extractLsb' 0 i.operandBits :=
      BitVec.eq_of_toNat_eq (by rw [toNat_extractLsb'_zero, toNat_extractLsb'_zero, ha])
    rcases encode_of_decode_ok h' with ⟨h9', -⟩ | ⟨-, hi'⟩
    · exact absurd (hop.symm.trans h9') h9
    · rw [hbits, hop, hlow, ← hi] at hi'
      rw [h', encode_injective hi']

end Sys2Proof
end

section
/-! SUPPORT. One step over a command that decodes, said in full: the presented state with the operation's value driven and recorded
(70_reset_and_hazards.md R117; log 3). And how far up `y` the result lanes reach (30_encoding.md R48). -/

namespace Sys2Proof.Machine

/-- The lane puts zeros above the result. -/
theorem resultLane_lt {w : Nat} (v : BitVec w) (h : w ≤ 32) : (resultLane v).toNat < 2 ^ w :=
  (resultLane_toNat v h).trans_lt v.isLt

/-- The lane of ISCLOSE carries one bit. -/
theorem booleanLane_cases (v : Bool) : booleanLane v = 0 ∨ booleanLane v = 1 := by
  cases v
  · exact .inl rfl
  · exact .inr rfl

/-- A step over a command that decodes drives the operation's value and records it. -/
theorem step_of_decode_ok {s : State} {i : Instr} (h : decode s.present.inputs = .ok i) :
    step s = .next (s.present.driveY (drivenValue i)).collect :=
  step_of_ok h (exec_eq_driveY i _)

/-- A step over a presented command with a defined code completes: it drives some value and records it (R50). -/
theorem step_of_defined_op {s u : State} (hpres : s.present = u) (hop : u.inputs.op.toNat < 10) :
    ∃ y, step s = .next (u.driveY y).collect := by
  subst hpres
  rcases decode_cases s.present.inputs with ⟨-, i, hi⟩ | ⟨hge, -⟩
  · exact ⟨drivenValue i, step_of_decode_ok hi⟩
  · exact absurd hop (Nat.not_lt.mpr hge)

end Sys2Proof.Machine
end

section
/-! The statements about encoding and decoding (30_encoding.md R45 to R51). -/

namespace Sys2Proof.Machine

/-- Settles O1: the vector stands for the encoded command, from which the decoder reads the operation back. -/
theorem decodeOfEncodeIsTheOperation : Obligations.DecodeOfEncodeIsTheOperation := by
  intro i
  rw [decodeBits, encodeBits, ofBits_toBits, decode_encode]

/-- Settles O2: the fields of the two encodings of `encode_of_decode_ok`. -/
theorem encodeOfDecodeClearsIgnoredBits : Obligations.EncodeOfDecodeClearsIgnoredBits := by
  intro v i h
  rcases encode_of_decode_ok h with ⟨h9, hwide, hi⟩ | ⟨h9, hi⟩ <;> rw [hi]
  · exact ⟨rfl, by rw [hwide, Nat.mod_eq_of_lt (BitVec.isLt _)], fun _ => ⟨rfl, rfl, rfl⟩, absurd h9⟩
  · refine ⟨rfl, ?_, fun h => absurd h h9, fun _ => ⟨rfl, rfl, rfl⟩⟩
    exact (BitVec.toNat_setWidth_of_le (operandBits_le i)).trans (toNat_extractLsb'_zero _)

/-- Settles O3: each word is cut at the bounds of its fields. -/
theorem writtenOutWordsDecode : Obligations.WrittenOutWordsDecode := by
  unfold Obligations.WrittenOutWordsDecode
  decide +kernel

/-- Settles O4: a defined code by `decode_ok_of_op_eq`, a reserved one by `decode_error_of_op_eq`. -/
theorem onlyOpTakesPartInDecoding : Obligations.OnlyOpTakesPartInDecoding := by
  intro c c' hop
  refine ⟨fun i h => ?_, fun e h => decode_error_of_op_eq hop.symm h⟩
  obtain ⟨i', h', hname, -⟩ := decode_ok_of_op_eq hop.symm h
  exact ⟨i', h', hname⟩

/-- Settles O5: both commands decode to one operation, which drives one value (`drivenValue`). -/
theorem unusedInputBitsDoNotChangeY : Obligations.UnusedInputBitsDoNotChangeY := by
  intro c c' i s rest h hop ha hports
  have h' := decode_eq_of_read_bits_eq h hop ha hports
  exact ⟨h', _, _, step_of_decode_ok (s := { s with pending := c :: rest }) h,
    step_of_decode_ok (s := { s with pending := c' :: rest }) h', rfl⟩

/-- Settles O6: each operation drives the lane of its result, and nothing else. -/
theorem narrowResultsAreZeroExtended : Obligations.NarrowResultsAreZeroExtended :=
  fun f a b rel absTol _ =>
    ⟨⟨_, rfl, resultLane_lt (enc16 f) (by decide)⟩, ⟨_, rfl, resultLane_lt (encbf16 f) (by decide)⟩,
      ⟨_, rfl, resultLane_lt (enc8 f) (by decide)⟩, ⟨_, rfl, booleanLane_cases (isclose a b rel absTol)⟩⟩

end Sys2Proof.Machine
end

section
/-! The statements about what is refused and what completes (30_encoding.md R49, R50, 60_exceptions.md R101). -/

namespace Sys2Proof.Machine

/-- Settles O7: the decoder names a reserved code, and a step over a command that decodes answers a next state. -/
theorem exactlyTheReservedCodesAreRefused : Obligations.ExactlyTheReservedCodesAreRefused := by
  intro s
  rcases decode_cases s.present.inputs with ⟨hlt, i, hi⟩ | ⟨hge, herr⟩
  · refine ⟨fun hge => absurd hlt (Nat.not_lt.mpr hge), fun r hr => ?_⟩
    rw [step_of_decode_ok hi] at hr
    cases hr
  · exact ⟨fun _ => step_of_error herr, fun _ _ => hge⟩

/-- Settles O8: `step_of_defined_op`, from each of the two states the host can present. -/
theorem everyDefinedCommandCompletes : Obligations.EveryDefinedCommandCompletes :=
  fun _ => ⟨fun _ _ hp hop => step_of_defined_op (present_of_cons hp) hop, fun hp hop => step_of_defined_op (present_of_nil hp) hop⟩

end Sys2Proof.Machine
end

section
/-! The statement about the descriptor ROM (40_descriptor_rom.md R55, R56). -/

namespace Sys2Proof.Machine

/-- The exponent maximum is twice the bias and one (`descriptor_regular`), so the bias is half of the exponent range, less one (R21). -/
theorem descriptor_bias (F : Format) : (descriptor F).bias = 2 ^ ((descriptor F).exponentBits - 1) - 1 := by
  obtain ⟨-, hmax, hbias, -⟩ := descriptor_regular F
  rw [exponentMax] at hmax
  cases hE : (descriptor F).exponentBits with
  | zero =>
    rw [hE] at hmax
    omega
  | succ n =>
    rw [hE, pow_succ] at hmax
    rw [Nat.add_sub_cancel]
    omega

/-- Each field of a record in the ROM fits its byte, so the bytes of the word are the fields of the format's record (R35). -/
theorem romRead_fields (fmt : RomIndex) :
    ((romRead fmt).extractLsb' 24 8).toNat = (descriptor (romFormat fmt)).totalBits ∧
    ((romRead fmt).extractLsb' 16 8).toNat = (descriptor (romFormat fmt)).exponentBits ∧
    ((romRead fmt).extractLsb' 8 8).toNat = (descriptor (romFormat fmt)).mantissaBits ∧
    ((romRead fmt).extractLsb' 0 8).toNat = (descriptor (romFormat fmt)).bias := by
  revert fmt
  decide

/-- Settles O18: the word is `romRead fmt`; its value is the table's (`romRead_words`), and as its bytes are the fields of a record
(`romRead_fields`), the invariants are those of every format's record. -/
theorem lookupReadsTheDescriptorRom : Obligations.LookupReadsTheDescriptorRom := by
  intro fmt s
  obtain ⟨h0, h1, h2, h3⟩ := romRead_words
  obtain ⟨htotal, hexp, hmant, hbias⟩ := romRead_fields fmt
  obtain ⟨-, -, -, hsum⟩ := descriptor_regular (romFormat fmt)
  refine ⟨romRead fmt, exec_lookup fmt s, fun h => h ▸ h0, fun h => h ▸ h1, fun h => h ▸ h2, fun h => h ▸ h3, ?_, ?_⟩
  · rw [htotal, hexp, hmant, hsum]
  · rw [hbias, hexp, descriptor_bias]

end Sys2Proof.Machine
end

section
/-! The statement about the bit-casts (41_bitcast32.md R58, R59, R60). -/

namespace Sys2Proof.Machine

/-- ENC32 drives its operand, and nothing else (R58). -/
theorem exec_enc32_eq_operand (p : Word32) (s : State) : exec (.enc32 p) s = .next { s with y := p } := by
  rw [exec_enc32, resultLane_word32, enc32, State.driveY]

/-- DEC32 drives its operand, and nothing else (R59). -/
theorem exec_dec32_eq_operand (p : Word32) (s : State) : exec (.dec32 p) s = .next { s with y := p } := by
  rw [exec_dec32, resultLane_word32, dec32, State.driveY]

/-- On both bit-cast codes CORE is the low half of `a` (R58, R59). -/
theorem coreOutput_of_bitcast_op {c : Command} (hop : c.op = 0x0 ∨ c.op = 0x1) : coreOutput c = some (c.a.extractLsb' 0 32) := by
  rcases hop with hop | hop <;> simp [coreOutput, hop]

/-- Settles O19: each bit-cast drives its operand, and on their two codes a step drives CORE's value, the low half of `a`. -/
theorem bitcastsAreExactInverses : Obligations.BitcastsAreExactInverses := by
  refine ⟨fun p s => ⟨⟨_, exec_enc32_eq_operand p s, rfl, exec_dec32_eq_operand p _⟩,
    ⟨_, exec_dec32_eq_operand p s, rfl, exec_enc32_eq_operand p _⟩⟩, fun c rest s hp hop => ?_⟩
  have hcore : coreOutput s.present.inputs = some (c.a.extractLsb' 0 32) := by
    rw [present_of_cons hp]
    exact coreOutput_of_bitcast_op hop
  exact ⟨_, (step_next_iff s _).mpr ⟨_, hcore, rfl⟩, rfl⟩

end Sys2Proof.Machine
end

section
/-! SUPPORT. A pattern from its sign and its magnitude (10_state.md R24 to R30): what the two determine, which magnitudes are NaNs, and a
value that a format has is its own rounding (00_scope.md R12). -/

namespace Sys2Proof.Machine

/-- Every pattern is finite, an infinity or a NaN, so the NaNs are the magnitudes above the infinity's (R30). -/
theorem isNaN_iff (F : Format) {w : Nat} (p : BitVec w) :
    isNaN F p = true ↔ exponentMax F * 2 ^ (descriptor F).mantissaBits < magnitudeOf F p := by
  have hclass : isNaN F p = true ↔ isFinite F p ≠ true ∧ isInfinity F p ≠ true := by
    have hpos : 0 ≠ exponentMax F := by have := (descriptor_regular F).2.1; omega
    simp only [isNaN, isInfinity, isFinite, classify]
    split_ifs <;> simp_all
  rw [hclass, Ne, Ne, isFinite_iff, isInfinity_iff]
  omega

theorem isFinite_or_isInfinity_of_not_isNaN (F : Format) {w : Nat} {p : BitVec w} (h : isNaN F p = false) :
    isFinite F p = true ∨ isInfinity F p = true := by
  have hnot := (isNaN_iff F p).not.mp (by simp [h])
  rw [isFinite_iff, isInfinity_iff]
  omega

/-- The fields of a NaN (R30). -/
theorem fields_of_isNaN (F : Format) {w : Nat} {p : BitVec w} (h : isNaN F p = true) :
    exponentOf F p = exponentMax F ∧ mantissaOf F p ≠ 0 := by
  rw [isNaN, beq_iff_eq, classify] at h
  split_ifs at h with _ _ hmax hm
  exact ⟨hmax, hm⟩

/-- A subnormal has exponent field 0 (R30). -/
theorem exponentOf_of_subnormal (F : Format) {w : Nat} {p : BitVec w} (h : classify F p = .subnormal) : exponentOf F p = 0 := by
  unfold classify at h
  split_ifs at h with h0
  exact h0

/-- A pattern of the format's width, as a number, is its sign bit above its magnitude. -/
theorem toNat_eq_sign_add_magnitude (F : Format) {w : Nat} (p : BitVec w) (hw : (descriptor F).totalBits = w) :
    p.toNat = (signOf F p).toNat * 2 ^ (w - 1) + magnitudeOf F p := by
  have hwidth := (descriptor_regular F).2.2.2
  have hmag : magnitudeOf F p = p.toNat % 2 ^ (w - 1) := by
    rw [magnitudeOf, ← pow_add, show (descriptor F).mantissaBits + (descriptor F).exponentBits = w - 1 by omega]
  have hlt : p.toNat < 2 * 2 ^ (w - 1) := by
    rw [← pow_succ', show w - 1 + 1 = w by omega]
    exact p.isLt
  rw [hmag, signOf_eq_decide F p hw]
  by_cases hs : 2 ^ (w - 1) ≤ p.toNat
  · rw [decide_eq_true hs, Nat.mod_eq_sub_mod hs, Nat.mod_eq_of_lt (by omega), Bool.toNat_true]
    omega
  · rw [decide_eq_false hs, Nat.mod_eq_of_lt (by omega), Bool.toNat_false]
    omega

/-- A pattern is fixed by its sign and its magnitude. -/
theorem eq_of_sign_of_magnitude (F : Format) {w : Nat} {p q : BitVec w} (hw : (descriptor F).totalBits = w)
    (hs : signOf F p = signOf F q) (hm : magnitudeOf F p = magnitudeOf F q) : p = q := by
  apply BitVec.eq_of_toNat_eq
  rw [toNat_eq_sign_add_magnitude F p hw, toNat_eq_sign_add_magnitude F q hw, hs, hm]

/-- The infinities of binary32, by their sign (R30). -/
theorem eq_of_isInfinity_binary32 {f : Word32} (h : isInfinity .binary32 f = true) :
    f = if signOf .binary32 f then 0xFF800000 else 0x7F800000 := by
  have hmag := (isInfinity_iff .binary32 f).mp h
  refine eq_of_sign_of_magnitude .binary32 rfl ?_ ?_
  · cases signOf .binary32 f <;> rfl
  · rw [hmag]
    cases signOf .binary32 f <;> rfl

/-- Patterns of a format with one exact magnitude have one magnitude pattern (R29). -/
theorem magnitudeOf_eq_of_scaledMagnitude_eq (F : Format) {v w : Nat} {p : BitVec v} {q : BitVec w}
    (h : scaledMagnitude F p = scaledMagnitude F q) : magnitudeOf F p = magnitudeOf F q := by
  rw [scaledMagnitude_eq, scaledMagnitude_eq] at h
  exact (patternValue_strictMono _).injective h

/-- Patterns of a format with one value have one exact magnitude. -/
theorem scaledMagnitude_eq_of_val_eq (F : Format) {v w : Nat} {p : BitVec v} {q : BitVec w} (h : val F p = val F q) :
    scaledMagnitude F p = scaledMagnitude F q := by
  have habs := congrArg abs h
  rw [abs_val, abs_val, div_left_inj' (by positivity)] at habs
  exact_mod_cast habs

/-- A value that a finite pattern stands for, counted in any finer unit, is rounded to that pattern's magnitude (R12). -/
theorem roundMagnitude_scaledMagnitude (F : Format) {w : Nat} (p : BitVec w) (k : Nat) (h : isFinite F p = true) :
    roundMagnitude F (scaledMagnitude F p * 2 ^ k) k = magnitudeOf F p := by
  rw [isFinite_iff] at h
  rw [roundMagnitude_eq, scaledMagnitude_eq]
  set M := (descriptor F).mantissaBits
  set x := magnitudeOf F p
  have hnear := (roundPattern_nearest M (patternValue M x * 2 ^ k) k x (descriptor_regular F).1).1
  rw [Nat.cast_mul, Nat.cast_pow, Nat.cast_ofNat, sub_self, abs_zero, abs_nonpos_iff, sub_eq_zero] at hnear
  have hvalue : patternValue M x = patternValue M (roundPattern M (patternValue M x * 2 ^ k) k) := by
    exact_mod_cast mul_right_cancel₀ (by positivity) hnear
  rw [← (patternValue_strictMono M).injective hvalue]
  exact min_eq_left h.le

/-- Up to half a step everything rounds to zero, the tie included (R12). -/
theorem roundShift_eq_zero {n sh : Nat} (h : 2 * n ≤ 2 ^ sh) : roundShift n sh = 0 := by
  have hpos := Nat.two_pow_pos sh
  have hlt : n < 2 ^ sh := by omega
  have hhalf : n ≤ 2 ^ (sh - 1) := by
    cases sh with
    | zero => omega
    | succ u => rw [pow_succ] at h; rw [Nat.add_sub_cancel]; omega
  simp only [roundShift, Nat.div_eq_of_lt hlt, Nat.mod_eq_of_lt hlt]
  exact if_neg (by omega)

/-- Up to half a unit everything rounds to zero (R12). -/
theorem roundMagnitude_eq_zero (F : Format) {n k : Nat} (h : 2 * n ≤ 2 ^ k) : roundMagnitude F n k = 0 := by
  have hpos := Nat.two_pow_pos k
  have hmsb : msb n ≤ k := by
    rcases Nat.eq_zero_or_pos n with rfl | hn
    · exact Nat.zero_le k
    · exact ((Nat.log2_lt hn.ne').mpr (by omega)).le
  rw [roundMagnitude_eq, roundPattern, show msb n - (k + (descriptor F).mantissaBits) = 0 by omega, Nat.add_zero,
    roundShift_eq_zero h, Nat.zero_mul]
  exact Nat.zero_min _

end Sys2Proof.Machine
end

section
/-! SUPPORT. ENC16 as the model's rounding to nearest even of the exact magnitude (42_binary16.md R62, R63). -/

namespace Sys2Proof.Machine

/-- Doubling a binary32 pattern drops its sign, which is how ENC16 compares magnitudes (R62). -/
theorem toNat_add_self (f : Word32) : (f + f).toNat = 2 * magnitudeOf .binary32 f := by
  rw [BitVec.toNat_add]
  show (f.toNat + f.toNat) % 2 ^ 32 = 2 * (f.toNat % 2 ^ 31)
  omega

theorem enc16Magnitude_of_isNaN {f : Word32} (h : isNaN .binary32 f = true) : enc16Magnitude f = 0x7E00 := by
  have habove : 255 * 2 ^ 23 < magnitudeOf .binary32 f := (isNaN_iff .binary32 f).mp h
  have hdbl : f + f > 0xFF000000#32 := by
    rw [gt_iff_lt, BitVec.lt_def, toNat_add_self, BitVec.toNat_ofNat]
    omega
  rw [enc16Magnitude, if_pos hdbl]

theorem enc16Magnitude_of_isInfinity {f : Word32} (h : isInfinity .binary32 f = true) : enc16Magnitude f = 0x7C00 := by
  have hmag : magnitudeOf .binary32 f = 255 * 2 ^ 23 := (isInfinity_iff .binary32 f).mp h
  have hdbl : f + f = 0xFF000000#32 := BitVec.eq_of_toNat_eq (by rw [toNat_add_self, hmag]; rfl)
  rw [enc16Magnitude, hdbl]
  rfl

/-- The magnitude pattern, before saturation, of a binary32 number of exponent field `e` other than 0 and mantissa field `m`: the
significand rounded to the bits that the result's exponent leaves (R62). `enc16Magnitude_eq_ite` ties it to `enc16Magnitude`,
`roundPattern_binary16` to the rounding of R12. -/
def enc16Pattern (e m : Nat) : Nat :=
  (e - 113) * 2 ^ 10 + roundShift (2 ^ 23 + m) (13 + (113 - e))

/-- The normal and the subnormal branch of ENC16 are one formula, the exponent counted from field 113 (R62). -/
theorem enc16Finite_eq {e m : Nat} (hm : m < 2 ^ 23) : enc16Finite e m = min (enc16Pattern e m) 0x7C00 := by
  have hbounds := roundShift_le (2 ^ 23 + m) (13 + (113 - e))
  simp only [enc16Finite, enc16Pattern]
  by_cases he : 113 ≤ e
  · have hE : ((e : Int) - 127 ≥ -14) := by omega
    have hge : 1024 ≤ roundShift (2 ^ 23 + m) 13 := roundShift_ge _ _ _ (by omega)
    rw [if_pos hE, if_pos hE, show 113 - e = 0 by omega, Nat.add_zero, show ((e : Int) - 127 + 15).toNat = e - 112 by omega]
    split <;> omega
  · have hE : ¬ ((e : Int) - 127 ≥ -14) := by omega
    have hle : (2 ^ 23 + m) / 2 ^ (13 + (113 - e)) ≤ 2 ^ 11 := by
      rw [pow_add, ← Nat.div_div_eq_div_mul]
      exact (Nat.div_le_self _ _).trans (by omega)
    rw [if_neg hE, if_neg hE, show e - 113 = 0 by omega, show (-1 - ((e : Int) - 127)).toNat = 13 + (113 - e) by omega]
    omega

/-- Finite inputs take the last two branches of ENC16 (R62). -/
theorem enc16Magnitude_eq_ite {f : Word32} (hf : isFinite .binary32 f = true) :
    enc16Magnitude f = if exponentOf .binary32 f = 0 then 0
      else min (enc16Pattern (exponentOf .binary32 f) (mantissaOf .binary32 f)) 0x7C00 := by
  have hbelow : magnitudeOf .binary32 f < 255 * 2 ^ 23 := (isFinite_iff .binary32 f).mp hf
  have hlt : (f + f).toNat < (0xFF000000#32).toNat := by
    rw [toNat_add_self, BitVec.toNat_ofNat]
    omega
  have hexp : exponent32 f = 0 ↔ exponentOf .binary32 f = 0 := by
    rw [← exponent32_toNat, ← BitVec.toNat_inj]
    rfl
  rw [enc16Magnitude, if_neg (BitVec.lt_def.not.mpr hlt.not_gt), if_neg fun h => hlt.ne (congrArg _ h), exponent32_toNat,
    mantissa32_toNat, enc16Finite_eq (mantissaOf_binary32_lt f)]
  exact if_congr hexp rfl rfl

/-- The leading one of a significand with its exponent. -/
theorem msb_significand {m d : Nat} (hm : m < 2 ^ 23) : msb ((2 ^ 23 + m) * 2 ^ d) = 23 + d := by
  have hpos := Nat.two_pow_pos d
  rw [msb, Nat.log2_eq_iff (Nat.mul_pos (by omega) hpos).ne', show 23 + d + 1 = 24 + d by omega, pow_add 2 23, pow_add 2 24]
  exact ⟨Nat.mul_le_mul_right _ (by omega), Nat.mul_lt_mul_of_pos_right (by omega) hpos⟩

/-- ENC16's formula is the rounding to binary16 of the exact magnitude, whose unit is 2^125 times smaller (R12). -/
theorem roundPattern_binary16 {e m : Nat} (he : e ≠ 0) (hm : m < 2 ^ 23) :
    roundPattern 10 ((2 ^ 23 + m) * 2 ^ (e - 1)) 125 = enc16Pattern e m := by
  rw [roundPattern, msb_significand hm, show 23 + (e - 1) - (125 + 10) = e - 113 by omega,
    show 125 + (e - 113) = 13 + (113 - e) + (e - 1) by omega, roundShift_mul_two_pow _ _ (by omega), enc16Pattern]

/-- ENC16 rounds the exact magnitude of a finite input (R62, R63). -/
theorem enc16Magnitude_of_isFinite {f : Word32} (hf : isFinite .binary32 f = true) :
    enc16Magnitude f = roundMagnitude .binary16 (scaledMagnitude .binary32 f) 125 := by
  have hm := mantissaOf_binary32_lt f
  by_cases h0 : exponentOf .binary32 f = 0
  · have htiny : 2 * scaledMagnitude .binary32 f ≤ 2 ^ 125 := by
      rw [scaledMagnitude, if_pos h0]
      omega
    rw [enc16Magnitude_eq_ite hf, if_pos h0, roundMagnitude_eq_zero .binary16 htiny]
  · rw [enc16Magnitude_eq_ite hf, if_neg h0, scaledMagnitude_binary32 f h0, ← roundPattern_binary16 h0 hm, roundMagnitude_eq]
    rfl

/-- ENC16's magnitude leaves bit 15 to the sign. -/
theorem enc16Magnitude_lt (f : Word32) : enc16Magnitude f < 2 ^ 15 := by
  cases hn : isNaN .binary32 f with
  | true => rw [enc16Magnitude_of_isNaN hn]; decide
  | false =>
    rcases isFinite_or_isInfinity_of_not_isNaN .binary32 hn with hf | hi
    · rw [enc16Magnitude_of_isFinite hf]
      exact (roundMagnitude_le .binary16 _ _).trans_lt (by decide)
    · rw [enc16Magnitude_of_isInfinity hi]; decide

theorem magnitudeOf_enc16 (f : Word32) : magnitudeOf .binary16 (enc16 f) = enc16Magnitude f :=
  (magnitudeOf_withSign .binary16 _ _ rfl).trans (Nat.mod_eq_of_lt (enc16Magnitude_lt f))

/-- ENC16 keeps the sign (R62). -/
theorem signOf_enc16 (f : Word32) : signOf .binary16 (enc16 f) = signOf .binary32 f :=
  (signOf_withSign .binary16 _ _ rfl).trans (sign32_getLsbD f)

/-- ENC16 drives its magnitude below the sign of the input, and nothing else. -/
theorem exec_enc16_of_magnitude {f : Word32} {x : Nat} (h : enc16Magnitude f = x) (s : State) :
    exec (.enc16 f) s = .next (s.driveY (if signOf .binary32 f then resultLane (withSign 1#1 (BitVec.ofNat 15 x))
      else resultLane (withSign 0#1 (BitVec.ofNat 15 x)))) := by
  have hsign := sign32_getLsbD f
  rw [exec_enc16, enc16, h, ← hsign]
  rcases BitVec.eq_zero_or_eq_one (sign32 f) with hb | hb <;> rw [hb] <;> rfl

end Sys2Proof.Machine
end

section
/-! The statements about ENC16 (42_binary16.md R62 to R66). -/

namespace Sys2Proof.Machine

/-- Settles O20: the magnitude of a NaN is 0x7E00, whatever the payload. -/
theorem enc16MakesNaNCanonical : Obligations.Enc16MakesNaNCanonical :=
  fun _ s hn => exec_enc16_of_magnitude (enc16Magnitude_of_isNaN hn) s

/-- ENC16 of a finite input is its rounding to binary16 (R63). -/
theorem roundsTo_enc16 {f : Word32} (hf : isFinite .binary32 f = true) : RoundsTo .binary16 (val .binary32 f) (enc16 f) := by
  have hval : val .binary32 f = (if signOf .binary16 (enc16 f) then -1 else 1) *
      ((scaledMagnitude .binary32 f : ℚ) / (2 ^ 125 * 2 ^ unitExponent .binary16)) := by
    rw [signOf_enc16, val_eq, mul_div_assoc, ← pow_add]
    rfl
  rw [hval]
  exact roundsTo_roundMagnitude .binary16 (enc16 f) _ 125 ((magnitudeOf_enc16 f).trans (enc16Magnitude_of_isFinite hf))

theorem overflowThreshold_binary16 : overflowThreshold .binary16 = 65520 := by
  norm_num [overflowThreshold, descriptor]

/-- Settles O21: an infinity has magnitude 0x7C00, and a finite input is rounded (`roundsTo_enc16`), from 65520 on to an infinity. -/
theorem enc16RoundsToNearestEven : Obligations.Enc16RoundsToNearestEven := by
  intro f s hn
  have hround : isFinite .binary32 f = true → RoundsTo .binary16 (val .binary32 f) (enc16 f) := roundsTo_enc16
  rw [RoundsTo, overflowThreshold_binary16] at hround
  refine ⟨enc16 f, exec_enc16 f s, signOf_enc16 f, fun hover => ?_, fun ⟨hf, hlt⟩ => ?_⟩
  · show magnitudeOf .binary16 (enc16 f) = 0x7C00
    rcases isFinite_or_isInfinity_of_not_isNaN .binary32 hn with hf | hi
    · have hge := hover.resolve_left (by simp [(not_nan_not_infinity_of_isFinite .binary32 f hf).2])
      have hr := hround hf
      rw [if_neg hge.not_gt] at hr
      exact (isInfinity_iff .binary16 _).mp hr.1
    · exact (magnitudeOf_enc16 f).trans (enc16Magnitude_of_isInfinity hi)
  · have hr := hround hf
    rwa [if_pos hlt] at hr

/-- The formula of ENC16 reaches the infinity's magnitude from magnitude pattern 0x477FF000, the number 65520, on (R65). -/
theorem enc16Pattern_ge_of_ge {e m : Nat} (hm : m < 2 ^ 23) (h : 0x477FF000 ≤ e * 2 ^ 23 + m) : 0x7C00 ≤ enc16Pattern e m := by
  have hge := roundShift_ge (2 ^ 23 + m) 13 (2 ^ 10) (by omega)
  rw [enc16Pattern, show 113 - e = 0 by omega, Nat.add_zero]
  by_cases he : 143 ≤ e
  · omega
  · have hbounds := (roundShift_bounds (2 ^ 23 + m) 13).1
    have htie := roundShift_tie (2 ^ 23 + m) 13
    omega

/-- From 65504 and below 65520 it is the largest finite magnitude (R65). -/
theorem enc16Pattern_of_between {e m : Nat} (hm : m < 2 ^ 23) (h : 0x477FE000 ≤ e * 2 ^ 23 + m) (h' : e * 2 ^ 23 + m < 0x477FF000) :
    enc16Pattern e m = 0x7BFF := by
  have he : e = 142 := by omega
  have hge := roundShift_ge (2 ^ 23 + m) 13 2047 (by omega)
  have hle := (roundShift_bounds (2 ^ 23 + m) 13).2
  rw [enc16Pattern, he, show 13 + (113 - 142) = 13 from rfl]
  omega

/-- A binary32 magnitude is its exponent field above its mantissa field (R24). -/
theorem magnitudeOf_binary32_eq (f : Word32) :
    magnitudeOf .binary32 f = exponentOf .binary32 f * 2 ^ 23 + mantissaOf .binary32 f := by
  rw [← magnitudeOf_div, ← magnitudeOf_mod]
  exact (Nat.div_add_mod' _ _).symm

theorem enc16Magnitude_of_ge {f : Word32} (h : 0x477FF000 ≤ magnitudeOf .binary32 f) (h' : magnitudeOf .binary32 f ≤ 0x7F800000) :
    enc16Magnitude f = 0x7C00 := by
  rcases h'.eq_or_lt with heq | hlt
  · exact enc16Magnitude_of_isInfinity ((isInfinity_iff .binary32 f).mpr heq)
  · have hm := mantissaOf_binary32_lt f
    rw [magnitudeOf_binary32_eq] at h
    rw [enc16Magnitude_eq_ite ((isFinite_iff .binary32 f).mpr hlt), if_neg (by omega), min_eq_right (enc16Pattern_ge_of_ge hm h)]

theorem enc16Magnitude_of_between {f : Word32} (h : 0x477FE000 ≤ magnitudeOf .binary32 f)
    (h' : magnitudeOf .binary32 f < 0x477FF000) : enc16Magnitude f = 0x7BFF := by
  have hm := mantissaOf_binary32_lt f
  have hf : isFinite .binary32 f = true := (isFinite_iff .binary32 f).mpr (h'.trans (by decide))
  rw [magnitudeOf_binary32_eq] at h h'
  rw [enc16Magnitude_eq_ite hf, if_neg (by omega), enc16Pattern_of_between hm h h']
  rfl

/-- Settles O22: the range of the magnitude fixes ENC16's magnitude. -/
theorem enc16SaturatesAtTheMidpoint : Obligations.Enc16SaturatesAtTheMidpoint :=
  fun _ s => ⟨fun ⟨h, h'⟩ => exec_enc16_of_magnitude (enc16Magnitude_of_ge h h') s,
    fun ⟨h, h'⟩ => exec_enc16_of_magnitude (enc16Magnitude_of_between h h') s⟩

/-- Settles O23: half of binary16's least unit, and everything below, rounds to zero (`roundMagnitude_eq_zero`). -/
theorem enc16TinyInputsBecomeSignedZero : Obligations.Enc16TinyInputsBecomeSignedZero := by
  intro f s
  refine ⟨fun ⟨hf, hle⟩ => ?_, fun h => by rw [h]; rfl⟩
  have htiny : 2 * scaledMagnitude .binary32 f ≤ 2 ^ 125 := by
    rw [abs_val, show unitExponent .binary32 = 149 from rfl, div_le_div_iff₀ (by positivity) (by positivity)] at hle
    have hnat : scaledMagnitude .binary32 f * 2 ^ 25 ≤ 1 * 2 ^ 149 := by exact_mod_cast hle
    omega
  exact exec_enc16_of_magnitude ((enc16Magnitude_of_isFinite hf).trans (roundMagnitude_eq_zero .binary16 htiny)) s

end Sys2Proof.Machine
end

section
/-! SUPPORT. The fields of DEC16's result, class by class, and that no value is rounded (42_binary16.md R70 to R72). -/

namespace Sys2Proof.Machine

/-- DEC16 keeps the sign (R70). -/
theorem signOf_dec16 (h : Word16) : signOf .binary32 (dec16 h) = signOf .binary16 h :=
  (signOf_withSign .binary32 _ _ rfl).trans (sign16_getLsbD h)

theorem isNaN_dec16 (h : Word16) : isNaN .binary32 (dec16 h) = isNaN .binary16 h := by
  rw [isNaN, isNaN, classify_dec16]
  cases classify .binary16 h <;> rfl

theorem isInfinity_dec16 (h : Word16) : isInfinity .binary32 (dec16 h) = isInfinity .binary16 h := by
  rw [isInfinity, isInfinity, classify_dec16]
  cases classify .binary16 h <;> rfl

theorem isZero_dec16 (h : Word16) : isZero .binary32 (dec16 h) = isZero .binary16 h := by
  rw [isZero, isZero, classify_dec16]
  cases classify .binary16 h <;> rfl

theorem isFinite_dec16 {h : Word16} (hf : isFinite .binary16 h = true) : isFinite .binary32 (dec16 h) = true := by
  obtain ⟨hn, hi⟩ := not_nan_not_infinity_of_isFinite .binary16 h hf
  have hn' : isNaN .binary32 (dec16 h) = false := by rw [isNaN_dec16, hn]
  exact (isFinite_or_isInfinity_of_not_isNaN .binary32 hn').resolve_right (by simp [isInfinity_dec16, hi])

theorem exponent16_eq_zero_iff (h : Word16) : exponent16 h = 0 ↔ exponentOf .binary16 h = 0 := by
  rw [← exponent16_toNat, ← BitVec.toNat_inj]
  rfl

theorem exponent16_eq_max_iff (h : Word16) : exponent16 h = 31 ↔ exponentOf .binary16 h = 31 := by
  rw [← exponent16_toNat, ← BitVec.toNat_inj]
  rfl

theorem mantissa16_eq_zero_iff (h : Word16) : mantissa16 h = 0 ↔ mantissaOf .binary16 h = 0 := by
  rw [← mantissa16_toNat, ← BitVec.toNat_inj]
  rfl

/-- The mantissa field of a binary16 pattern, shifted to some place in a binary32 mantissa field. -/
theorem toNat_mantissa16_shiftLeft (h : Word16) (n : Nat) :
    ((mantissa16 h).setWidth 23 <<< n).toNat = mantissaOf .binary16 h * 2 ^ n % 2 ^ 23 := by
  rw [BitVec.toNat_shiftLeft, BitVec.toNat_setWidth_of_le (by decide), mantissa16_toNat, Nat.shiftLeft_eq]

theorem mantissaOf_binary16_lt (h : Word16) : mantissaOf .binary16 h < 2 ^ 10 :=
  Nat.mod_lt _ (Nat.two_pow_pos 10)

/-- A number with its leading one is rebiased, and its mantissa stands at the top of the field (R70). -/
theorem fields_dec16_of_normal {h : Word16} (h0 : exponentOf .binary16 h ≠ 0) (hmax : exponentOf .binary16 h ≠ 31) :
    exponentOf .binary32 (dec16 h) = exponentOf .binary16 h + 112 ∧
    mantissaOf .binary32 (dec16 h) = mantissaOf .binary16 h * 2 ^ 13 := by
  have hm := mantissaOf_binary16_lt h
  have he := exponentOf_lt .binary16 h
  have hmaxval : exponentMax .binary16 = 31 := rfl
  have heq : dec16 h = withSign (sign16 h) (BitVec.ofNat 8 ((exponent16 h).toNat + 112) ++ ((mantissa16 h).setWidth 23 <<< 13)) := by
    rw [dec16, dec16Magnitude, if_neg ((exponent16_eq_zero_iff h).not.mpr h0), if_neg ((exponent16_eq_max_iff h).not.mpr hmax)]
  obtain ⟨hexp, hmant⟩ := fields_withSign_append .binary32 (sign16 h) (BitVec.ofNat 8 ((exponent16 h).toNat + 112))
    ((mantissa16 h).setWidth 23 <<< 13) rfl rfl
  rw [heq, hexp, hmant, toNat_mantissa16_shiftLeft, exponent16_toNat, BitVec.toNat_ofNat]
  omega

/-- A subnormal is normalised: the leading one of its mantissa, at position `k`, becomes the hidden one (R71). -/
theorem fields_dec16_of_subnormal {h : Word16} {k : Nat} (h0 : exponentOf .binary16 h = 0) (hk : 2 ^ k ≤ mantissaOf .binary16 h)
    (hk' : mantissaOf .binary16 h < 2 ^ (k + 1)) :
    exponentOf .binary32 (dec16 h) = 103 + k ∧
    mantissaOf .binary32 (dec16 h) = (mantissaOf .binary16 h - 2 ^ k) * 2 ^ (23 - k) := by
  have hpos := Nat.two_pow_pos k
  have hne : mantissaOf .binary16 h ≠ 0 := by omega
  have hmsb : msb (mantissa16 h).toNat = k := by
    rw [mantissa16_toNat]
    exact (Nat.log2_eq_iff hne).mpr ⟨hk, hk'⟩
  have hk10 : k < 10 := hmsb ▸ msb_lt_width ((mantissa16_eq_zero_iff h).not.mpr hne)
  have heq : dec16 h = withSign (sign16 h) (BitVec.ofNat 8 (103 + k) ++ ((mantissa16 h).setWidth 23 <<< (23 - k))) := by
    rw [dec16, dec16Magnitude, if_pos ((exponent16_eq_zero_iff h).mpr h0), if_neg ((mantissa16_eq_zero_iff h).not.mpr hne), hmsb]
  obtain ⟨hexp, hmant⟩ := fields_withSign_append .binary32 (sign16 h) (BitVec.ofNat 8 (103 + k))
    ((mantissa16 h).setWidth 23 <<< (23 - k)) rfl rfl
  have htop : mantissaOf .binary16 h * 2 ^ (23 - k) % 2 ^ 23 = (mantissaOf .binary16 h - 2 ^ k) * 2 ^ (23 - k) := by
    have hfull : 2 ^ 23 = 2 ^ k * 2 ^ (23 - k) := by rw [← pow_add, show k + (23 - k) = 23 by omega]
    rw [hfull, Nat.mul_mod_mul_right, Nat.mod_eq_sub_mod hk, Nat.mod_eq_of_lt]
    rw [pow_succ] at hk'
    omega
  rw [heq, hexp, hmant, toNat_mantissa16_shiftLeft, htop, BitVec.toNat_ofNat]
  exact ⟨Nat.mod_eq_of_lt (by omega), rfl⟩

/-- The leading one of a nonzero mantissa, and the bits below it, are the whole mantissa again. -/
theorem scaledMagnitude_dec16_of_subnormal {h : Word16} (h0 : exponentOf .binary16 h = 0) (hm : mantissaOf .binary16 h ≠ 0) :
    scaledMagnitude .binary32 (dec16 h) = mantissaOf .binary16 h * 2 ^ 125 := by
  have hk : 2 ^ Nat.log2 (mantissaOf .binary16 h) ≤ mantissaOf .binary16 h := Nat.log2_self_le hm
  have hk10 : Nat.log2 (mantissaOf .binary16 h) < 10 := (Nat.log2_lt hm).mpr (mantissaOf_binary16_lt h)
  obtain ⟨hexp, hmant⟩ := fields_dec16_of_subnormal h0 hk Nat.lt_log2_self
  generalize Nat.log2 (mantissaOf .binary16 h) = k at *
  have hfull : 2 ^ 23 = 2 ^ k * 2 ^ (23 - k) := by rw [← pow_add, show k + (23 - k) = 23 by omega]
  rw [scaledMagnitude_binary32 _ (by omega), hexp, hmant, hfull, ← Nat.add_mul, Nat.add_sub_cancel' hk, Nat.mul_assoc, ← pow_add,
    show 23 - k + (103 + k - 1) = 125 by omega]

theorem scaledMagnitude_dec16_of_normal {h : Word16} (h0 : exponentOf .binary16 h ≠ 0) (hmax : exponentOf .binary16 h ≠ 31) :
    scaledMagnitude .binary32 (dec16 h) = (2 ^ 10 + mantissaOf .binary16 h) * 2 ^ (exponentOf .binary16 h - 1) * 2 ^ 125 := by
  obtain ⟨hexp, hmant⟩ := fields_dec16_of_normal h0 hmax
  rw [scaledMagnitude_binary32 _ (by omega), hexp, hmant, show 2 ^ 23 = 2 ^ 10 * 2 ^ 13 from rfl, ← Nat.add_mul, Nat.mul_assoc,
    Nat.mul_assoc, ← pow_add, ← pow_add, show 13 + (exponentOf .binary16 h + 112 - 1) = exponentOf .binary16 h - 1 + 125 by omega]

/-- Nothing is rounded: the exact magnitude is the same, in a unit 2^125 times smaller (R70). -/
theorem scaledMagnitude_dec16 {h : Word16} (hf : isFinite .binary16 h = true) :
    scaledMagnitude .binary32 (dec16 h) = scaledMagnitude .binary16 h * 2 ^ 125 := by
  have hmax : exponentOf .binary16 h ≠ 31 := bne_iff_ne.mp hf
  by_cases h0 : exponentOf .binary16 h = 0
  · have hn : scaledMagnitude .binary16 h = mantissaOf .binary16 h := if_pos h0
    rw [hn]
    by_cases hm : mantissaOf .binary16 h = 0
    · have hz : isZero .binary32 (dec16 h) = true := by
        rw [isZero_dec16, isZero_iff_scaledMagnitude .binary16 h hf, hn, hm]
      rw [(isZero_iff_scaledMagnitude .binary32 _ (isFinite_dec16 hf)).mp hz, hm, Nat.zero_mul]
    · exact scaledMagnitude_dec16_of_subnormal h0 hm
  · have hn : scaledMagnitude .binary16 h = (2 ^ 10 + mantissaOf .binary16 h) * 2 ^ (exponentOf .binary16 h - 1) := if_neg h0
    rw [hn, scaledMagnitude_dec16_of_normal h0 hmax]

/-- A NaN's fields: the exponent field of all ones above `dec16NaN` (R70). -/
theorem dec16_of_isNaN {h : Word16} (hn : isNaN .binary16 h = true) :
    dec16 h = withSign (sign16 h) (0xFF#8 ++ dec16NaN (mantissa16 h)) := by
  obtain ⟨hmax, hm⟩ := fields_of_isNaN .binary16 hn
  have he : exponent16 h = 31 := (exponent16_eq_max_iff h).mpr hmax
  rw [dec16, dec16Magnitude, he, if_neg (by decide), if_pos rfl, if_neg ((mantissa16_eq_zero_iff h).not.mpr hm)]

/-- The lower 23 bits of DEC16's NaN. -/
theorem getLsbD_dec16_of_isNaN {h : Word16} (hn : isNaN .binary16 h = true) {i : Nat} (hi : i < 23) :
    (dec16 h).getLsbD i = (dec16NaN (mantissa16 h)).getLsbD i := by
  rw [dec16_of_isNaN hn, withSign, BitVec.getLsbD_append, BitVec.getLsbD_append, if_pos (by omega), if_pos hi]

theorem getLsbD_dec16NaN_quiet (m : BitVec 10) : (dec16NaN m).getLsbD 22 = true := by
  rw [dec16NaN, BitVec.getLsbD_or]
  rfl

/-- The payload below the quiet bit stands at the top of the wider field (R72). -/
theorem getLsbD_dec16NaN_payload (m : BitVec 10) {j : Nat} (hj : j < 9) : (dec16NaN m).getLsbD (13 + j) = m.getLsbD j := by
  have hquiet : ∀ i < 9, (0x400000#23).getLsbD (13 + i) = false := by decide
  rw [dec16NaN, BitVec.getLsbD_or, hquiet j hj, Bool.false_or, BitVec.getLsbD_shiftLeft, BitVec.getLsbD_setWidth]
  simp [show 13 + j < 23 by omega, show j < 23 by omega]

end Sys2Proof.Machine
end

section
/-! The statements about DEC16 (42_binary16.md R70 to R72). -/

namespace Sys2Proof.Machine

/-- DEC16 drives its result, and nothing else (R70). -/
theorem exec_dec16_eq (h : Word16) (s : State) : exec (.dec16 h) s = .next { s with y := dec16 h } := by
  rw [exec_dec16, resultLane_word32, State.driveY]

/-- The value is kept, the unit being 2^125 times smaller (R70). -/
theorem val_dec16 {h : Word16} (hf : isFinite .binary16 h = true) : val .binary32 (dec16 h) = val .binary16 h := by
  have hunits : unitExponent .binary32 = unitExponent .binary16 + 125 := rfl
  rw [val_eq, val_eq, signOf_dec16, scaledMagnitude_dec16 hf, hunits, pow_add, Nat.cast_mul, Nat.cast_pow, Nat.cast_ofNat, ← mul_assoc]
  exact mul_div_mul_right _ _ (by positivity)

/-- Settles O24: value and sign are kept. -/
theorem dec16IsExact : Obligations.Dec16IsExact :=
  fun h s hf => ⟨dec16 h, exec_dec16_eq h s, isFinite_dec16 hf, val_dec16 hf, signOf_dec16 h⟩

/-- Clearing the sign bit of a binary16 pattern leaves its magnitude (R29). -/
theorem val_binary16_and_magnitudeMask (h : Word16) : val .binary16 (h &&& 0x7FFF#16) = |val .binary16 h| := by
  have hmask : (h &&& 0x7FFF#16).toNat = magnitudeOf .binary16 h := by
    rw [BitVec.toNat_and]
    exact Nat.and_two_pow_sub_one_eq_mod h.toNat 15
  have hlt : magnitudeOf .binary16 h < 2 ^ 15 := Nat.mod_lt _ (by decide)
  have hsign : signOf .binary16 (h &&& 0x7FFF#16) = false := by
    rw [signOf_eq_decide .binary16 (h &&& 0x7FFF#16) rfl, hmask]
    exact decide_eq_false hlt.not_ge
  have hmag : magnitudeOf .binary16 (h &&& 0x7FFF#16) = magnitudeOf .binary16 h := by
    rw [magnitudeOf, hmask]
    exact Nat.mod_eq_of_lt hlt
  rw [val_eq, abs_val, hsign, scaledMagnitude_eq, hmag, ← scaledMagnitude_eq, if_neg Bool.false_ne_true, one_mul]

/-- Settles O25: the fields are those of `fields_dec16_of_subnormal`. -/
theorem dec16NormalisesSubnormals : Obligations.Dec16NormalisesSubnormals := by
  intro h s k hsub hk hk'
  have hclass : classify .binary16 h = .subnormal := beq_iff_eq.mp hsub
  have h0 : exponentOf .binary16 h = 0 := exponentOf_of_subnormal .binary16 hclass
  obtain ⟨hexp, hmant⟩ := fields_dec16_of_subnormal h0 hk hk'
  refine ⟨?_, dec16 h, exec_dec16_eq h s, by rw [classify_dec16, if_pos hclass], signOf_dec16 h, hexp, hmant⟩
  rw [val_binary16_and_magnitudeMask, abs_val, scaledMagnitude, if_pos h0]
  rfl

/-- Settles O26: class and sign are kept, and the mantissa of a NaN is `dec16NaN`. -/
theorem dec16KeepsInfinityAndNaN : Obligations.Dec16KeepsInfinityAndNaN := by
  refine fun h s => ⟨fun hi => ?_, fun hn => ⟨dec16 h, exec_dec16_eq h s, ?_, signOf_dec16 h, ?_, fun j hj => ?_⟩⟩
  · have hdec : isInfinity .binary32 (dec16 h) = true := by rw [isInfinity_dec16, hi]
    rw [exec_dec16_eq, eq_of_isInfinity_binary32 hdec, signOf_dec16]
  · rw [isNaN_dec16, hn]
  · rw [getLsbD_dec16_of_isNaN hn (by decide), getLsbD_dec16NaN_quiet]
  · rw [getLsbD_dec16_of_isNaN hn (by omega), getLsbD_dec16NaN_payload _ hj]
    simp [mantissa16, show j < 10 by omega]

end Sys2Proof.Machine
end

section
/-! The statement about the round trips through binary16 (42_binary16.md R74). -/

namespace Sys2Proof.Machine

/-- ENC16 of a binary32 number that binary16 has is the pattern's own magnitude. -/
theorem enc16Magnitude_of_exact {f : Word32} {h : Word16} (hf : isFinite .binary32 f = true) (hh : isFinite .binary16 h = true)
    (hexact : scaledMagnitude .binary32 f = scaledMagnitude .binary16 h * 2 ^ 125) : enc16Magnitude f = magnitudeOf .binary16 h := by
  rw [enc16Magnitude_of_isFinite hf, hexact, roundMagnitude_scaledMagnitude .binary16 h 125 hh]

/-- ENC16 undoes DEC16 on every pattern that is no NaN (R74). -/
theorem enc16_dec16_of_not_isNaN {h : Word16} (hn : isNaN .binary16 h = false) : enc16 (dec16 h) = h := by
  refine eq_of_sign_of_magnitude .binary16 rfl (by rw [signOf_enc16, signOf_dec16]) ?_
  rw [magnitudeOf_enc16]
  rcases isFinite_or_isInfinity_of_not_isNaN .binary16 hn with hf | hi
  · exact enc16Magnitude_of_exact (isFinite_dec16 hf) hf (scaledMagnitude_dec16 hf)
  · rw [enc16Magnitude_of_isInfinity (by rw [isInfinity_dec16, hi])]
    exact ((isInfinity_iff .binary16 h).mp hi).symm

/-- A NaN comes back canonical, with its sign (R64, R74). -/
theorem enc16_dec16_of_isNaN {h : Word16} (hn : isNaN .binary16 h = true) :
    enc16 (dec16 h) = (h &&& 0x8000#16) ||| 0x7E00#16 := by
  have hsign : h &&& 0x8000#16 = if signOf .binary16 h then 0x8000#16 else 0#16 := BitVec.and_twoPow h 15
  refine eq_of_sign_of_magnitude .binary16 rfl ?_ ?_
  · rw [signOf_enc16, signOf_dec16, hsign]
    cases signOf .binary16 h <;> rfl
  · rw [magnitudeOf_enc16, enc16Magnitude_of_isNaN (by rw [isNaN_dec16, hn]), hsign]
    cases signOf .binary16 h <;> rfl

/-- DEC16 undoes ENC16 on an infinity (R74). -/
theorem dec16_enc16_of_isInfinity {f : Word32} (hi : isInfinity .binary32 f = true) : dec16 (enc16 f) = f := by
  have henc : isInfinity .binary16 (enc16 f) = true :=
    (isInfinity_iff .binary16 _).mpr ((magnitudeOf_enc16 f).trans (enc16Magnitude_of_isInfinity hi))
  have hdec : isInfinity .binary32 (dec16 (enc16 f)) = true := by rw [isInfinity_dec16, henc]
  rw [eq_of_isInfinity_binary32 hdec, signOf_dec16, signOf_enc16, ← eq_of_isInfinity_binary32 hi]

/-- DEC16 undoes ENC16 on every number that some binary16 pattern stands for (R74). -/
theorem dec16_enc16_of_val_eq {f : Word32} {h : Word16} (hf : isFinite .binary32 f = true) (hh : isFinite .binary16 h = true)
    (hval : val .binary16 h = val .binary32 f) : dec16 (enc16 f) = f := by
  have hexact : scaledMagnitude .binary32 f = scaledMagnitude .binary16 h * 2 ^ 125 :=
    (scaledMagnitude_eq_of_val_eq .binary32 (hval.symm.trans (val_dec16 hh).symm)).trans (scaledMagnitude_dec16 hh)
  have hmag : magnitudeOf .binary16 (enc16 f) = magnitudeOf .binary16 h :=
    (magnitudeOf_enc16 f).trans (enc16Magnitude_of_exact hf hh hexact)
  have hfin : isFinite .binary16 (enc16 f) = true := by rwa [isFinite_iff, hmag, ← isFinite_iff]
  refine eq_of_sign_of_magnitude .binary32 rfl (by rw [signOf_dec16, signOf_enc16]) (magnitudeOf_eq_of_scaledMagnitude_eq .binary32 ?_)
  rw [scaledMagnitude_dec16 hfin, hexact, scaledMagnitude_eq, hmag, ← scaledMagnitude_eq]

/-- Settles O27: the composites of the two functions, which `exec` drives one after the other. -/
theorem binary16RoundTrip : Obligations.Binary16RoundTrip := by
  refine ⟨fun h s => ⟨_, exec_dec16_eq h s, fun hn => ?_, fun hn => ?_⟩, fun f s hf => ⟨_, exec_enc16 f s, ?_⟩⟩
  · rw [exec_enc16, enc16_dec16_of_not_isNaN hn]
    rfl
  · rw [exec_enc16, enc16_dec16_of_isNaN hn]
    rfl
  · have hback : dec16 (enc16 f) = f := by
      rcases hf with hi | ⟨hf, h, hh, hval⟩
      · exact dec16_enc16_of_isInfinity hi
      · exact dec16_enc16_of_val_eq hf hh hval
    rw [exec_dec16_eq, driveY_y, resultLane, extractLsb'_setWidth_self _ (by decide), hback]

end Sys2Proof.Machine
end

section
/-! SUPPORT. The three cases of ENCBF16 by the class of its input, and its rounding as the addition of a bias to the pattern
(43_bfloat16.md R75). -/

namespace Sys2Proof.Machine

/-- ENCBF16's first test picks the NaNs (R75). -/
theorem encbf16_nanTest_iff (f : Word32) : (f &&& 0x7FFFFFFF#32) > 0x7F800000#32 ↔ isNaN .binary32 f = true := by
  rw [gt_iff_lt, BitVec.lt_def, toNat_and_magnitudeMask, isNaN_iff]
  rfl

/-- ENCBF16's second test picks exponent field 0 (R75). -/
theorem encbf16_exponentTest_iff (f : Word32) : (f &&& 0x7F800000#32) = 0 ↔ exponentOf .binary32 f = 0 := by
  have hfield : exponentOf .binary32 f = 0 ↔ exponent32 f = 0 := by
    rw [← exponent32_toNat, ← BitVec.toNat_inj]
    rfl
  have hoff : ∀ i < 32, ¬ (23 ≤ i ∧ i < 31) → (0x7F800000#32).getLsbD i = false := by decide
  rw [hfield]
  refine ⟨fun h => by rw [← exponent32_and_exponentMask, h]; rfl, fun h => BitVec.eq_of_getLsbD_eq fun i hi => ?_⟩
  rw [BitVec.getLsbD_and]
  by_cases hin : 23 ≤ i ∧ i < 31
  · have hbit : (exponent32 f).getLsbD (i - 23) = f.getLsbD i := by
      rw [exponent32, BitVec.getLsbD_extractLsb', Nat.add_sub_cancel' hin.1, decide_eq_true (by omega), Bool.true_and]
    rw [← hbit, h]
    simp
  · rw [hoff i hi hin, Bool.and_false]
    simp

theorem encbf16_of_isNaN {f : Word32} (hn : isNaN .binary32 f = true) : encbf16 f = f.extractLsb' 16 16 ||| 0x0040#16 :=
  if_pos ((encbf16_nanTest_iff f).mpr hn)

theorem encbf16_of_exponent_zero {f : Word32} (h0 : exponentOf .binary32 f = 0) : encbf16 f = f.extractLsb' 16 16 &&& 0x8000#16 := by
  have hn : ¬ isNaN .binary32 f = true := fun hn => absurd (h0.symm.trans (fields_of_isNaN .binary32 hn).1) (by decide)
  rw [encbf16, if_neg ((encbf16_nanTest_iff f).not.mpr hn), if_pos ((encbf16_exponentTest_iff f).mpr h0)]

theorem encbf16_of_rounded {f : Word32} (hn : isNaN .binary32 f = false) (h0 : exponentOf .binary32 f ≠ 0) :
    encbf16 f = encbf16Round f := by
  rw [encbf16, if_neg ((encbf16_nanTest_iff f).not.mpr (by simp [hn])), if_neg ((encbf16_exponentTest_iff f).not.mpr h0)]

/-- Rounding at bit 16 to nearest even adds just under half a step, and one more if the truncated result is odd (R75). -/
theorem roundShift_sixteen (n : Nat) : roundShift n 16 = (n + (0x7FFF + n / 2 ^ 16 % 2)) / 2 ^ 16 := by
  simp only [roundShift]
  split <;> omega

/-- From half a step below 0x7F80 steps on, the truncated result 0x7F7F being odd, the carry reaches 0x7F80 (R79). -/
theorem roundShift_sixteen_of_ge {n : Nat} (h : 0x7F7F8000 ≤ n) (h' : n ≤ 0x7F800000) : roundShift n 16 = 0x7F80 := by
  have htrunc : n / 2 ^ 16 = 0x7F7F ∨ n / 2 ^ 16 = 0x7F80 := by omega
  rw [roundShift_sixteen]
  rcases htrunc with ht | ht <;> rw [ht] <;> omega

/-- Below that tie the truncated result stays (R79). -/
theorem roundShift_sixteen_of_between {n : Nat} (h : 0x7F7F0000 ≤ n) (h' : n < 0x7F7F8000) : roundShift n 16 = 0x7F7F := by
  have htrunc : n / 2 ^ 16 = 0x7F7F := by omega
  rw [roundShift_sixteen, htrunc]
  omega

/-- The carry stops at the infinity's magnitude (R79). -/
theorem roundShift_sixteen_le {n : Nat} (h : n ≤ 0x7F800000) : roundShift n 16 ≤ 0x7F80 := by
  rw [roundShift_sixteen]
  omega

/-- The magnitudes of the patterns that are no NaN (R30). -/
theorem magnitudeOf_binary32_le {f : Word32} (hn : isNaN .binary32 f = false) : magnitudeOf .binary32 f ≤ 0x7F800000 :=
  not_lt.mp ((isNaN_iff .binary32 f).not.mp (by simp [hn]))

/-- The third case of ENCBF16 rounds below the sign (R75, R79). -/
theorem encbf16_toNat_of_rounded {f : Word32} (hn : isNaN .binary32 f = false) (h0 : exponentOf .binary32 f ≠ 0) :
    (encbf16 f).toNat = (signOf .binary32 f).toNat * 2 ^ 15 + roundShift (magnitudeOf .binary32 f) 16 := by
  have hle := roundShift_sixteen_le (magnitudeOf_binary32_le hn)
  have hsign : (signOf .binary32 f).toNat ≤ 1 := Bool.toNat_le _
  have hf : f.toNat = 2 * ((signOf .binary32 f).toNat * 2 ^ 14) * 2 ^ 16 + magnitudeOf .binary32 f := by
    rw [toNat_eq_sign_add_magnitude .binary32 f rfl]
    omega
  rw [encbf16_of_rounded hn h0, encbf16Round_toNat, hf, roundShift_add_even]
  omega

theorem magnitudeOf_encbf16_of_rounded {f : Word32} (hn : isNaN .binary32 f = false) (h0 : exponentOf .binary32 f ≠ 0) :
    magnitudeOf .bfloat16 (encbf16 f) = roundShift (magnitudeOf .binary32 f) 16 := by
  have hle := roundShift_sixteen_le (magnitudeOf_binary32_le hn)
  show (encbf16 f).toNat % 2 ^ 15 = _
  rw [encbf16_toNat_of_rounded hn h0, Nat.mul_add_mod']
  exact Nat.mod_eq_of_lt (by omega)

/-- The carry never wraps into the sign (R79). -/
theorem signOf_encbf16_of_rounded {f : Word32} (hn : isNaN .binary32 f = false) (h0 : exponentOf .binary32 f ≠ 0) :
    signOf .bfloat16 (encbf16 f) = signOf .binary32 f := by
  have hle := roundShift_sixteen_le (magnitudeOf_binary32_le hn)
  rw [signOf_eq_decide .bfloat16 (encbf16 f) rfl, encbf16_toNat_of_rounded hn h0]
  cases signOf .binary32 f
  · exact decide_eq_false (by rw [Bool.toNat_false]; omega)
  · exact decide_eq_true (by rw [Bool.toNat_true]; omega)

/-- A sign bit alone is the zero of that sign. -/
theorem and_signMask (p : Word16) : p &&& 0x8000#16 = if signOf .bfloat16 p then 0x8000#16 else 0#16 :=
  BitVec.and_twoPow p 15

/-- The quiet bit of binary32 stands above bit 6 of the upper half (R76, R81). -/
theorem append_zeros_or_quietBit (q : Word16) : (q ++ 0#16) ||| 0x00400000#32 = (q ||| 0x0040#16) ++ 0#16 := by
  rw [show 0x00400000#32 = 0x0040#16 ++ 0#16 from rfl, BitVec.or_append, BitVec.or_self]

/-- The upper half of a binary32 pattern has its sign. -/
theorem signOf_extractLsb'_high (f : Word32) : signOf .bfloat16 (f.extractLsb' 16 16) = signOf .binary32 f :=
  BitVec.getLsbD_extractLsb' 16 16 f 15

/-- The upper half of a binary32 pattern has the upper half of its magnitude. -/
theorem magnitudeOf_extractLsb'_high (f : Word32) :
    magnitudeOf .bfloat16 (f.extractLsb' 16 16) = magnitudeOf .binary32 f / 2 ^ 16 := by
  show (f.extractLsb' 16 16).toNat % 2 ^ 15 = f.toNat % 2 ^ 31 / 2 ^ 16
  rw [BitVec.extractLsb'_toNat, Nat.shiftRight_eq_div_pow]
  omega

end Sys2Proof.Machine
end

section
/-! The statements about ENCBF16 (43_bfloat16.md R75 to R77, R79). -/

namespace Sys2Proof.Machine

/-- Setting bit 6 of the upper half of a NaN makes a bfloat16 NaN, also where the payload was in the lower half (R76). -/
theorem isNaN_encbf16_of_isNaN {f : Word32} (hn : isNaN .binary32 f = true) : isNaN .bfloat16 (encbf16 f) = true := by
  have hexp : exponent32 (f.extractLsb' 16 16 ++ 0#16) = 0xFF#8 := by
    apply BitVec.eq_of_toNat_eq
    have hf := (fields_of_isNaN .binary32 hn).1
    have hhigh : exponentOf .bfloat16 (f.extractLsb' 16 16) = exponentOf .binary32 f := by
      rw [← magnitudeOf_div, magnitudeOf_extractLsb'_high, ← magnitudeOf_div, Nat.div_div_eq_div_mul]
      rfl
    rw [exponent32_toNat, (fields_append_zeros _).1, hhigh, hf]
    rfl
  rw [isNaN, encbf16_of_isNaN hn, ← classify_append_zeros, ← append_zeros_or_quietBit, classify_or_quietBit hexp]
  rfl

/-- Settles O28: the upper half with bit 6 set. -/
theorem encBf16QuietsNaN : Obligations.EncBf16QuietsNaN := by
  intro f s hn
  have hother : ∀ j < 16, j ≠ 6 → (0x0040#16).getLsbD j = false := by decide
  refine ⟨encbf16 f, rfl, isNaN_encbf16_of_isNaN hn, ?_, fun j hj h6 => ?_⟩
  · rw [encbf16_of_isNaN hn, BitVec.getLsbD_or]
    exact Bool.or_true _
  · rw [encbf16_of_isNaN hn, BitVec.getLsbD_or, hother j hj h6, Bool.or_false, BitVec.getLsbD_extractLsb', decide_eq_true hj,
      Bool.true_and]

/-- Settles O29: only the sign of the upper half is left. -/
theorem encBf16FlushesSubnormals : Obligations.EncBf16FlushesSubnormals := by
  refine fun f s => ⟨fun h0 => ?_, fun hf => by rw [hf]; rfl⟩
  rw [exec_encbf16, encbf16_of_exponent_zero h0, and_signMask, signOf_extractLsb'_high]
  cases signOf .binary32 f <;> rfl

/-- Settles O31: the third case is rounding at bit 16, and rounding at bit 16 adds the bias. -/
theorem encBf16RoundsByAddingABias : Obligations.EncBf16RoundsByAddingABias := by
  intro f s hn h0
  have hbias : resultLane (encbf16 f) = (f + (0x7FFF#32 + (f >>> 16 &&& 1#32))) >>> 16 := by
    apply BitVec.eq_of_toNat_eq
    rw [resultLane_toNat _ (by decide), encbf16_of_rounded hn h0, encbf16Round_toNat, roundShift_sixteen]
    simp only [BitVec.toNat_ushiftRight, BitVec.toNat_add, BitVec.toNat_and, BitVec.toNat_ofNat, Nat.shiftRight_eq_div_pow,
      Nat.reduceMod, Nat.reducePow, Nat.and_one_is_mod]
    omega
  rw [exec_encbf16, hbias]
  rfl

/-- Settles O32: the sign stands above the rounded magnitude, which is at most the infinity's. -/
theorem encBf16OverflowsByTheCarry : Obligations.EncBf16OverflowsByTheCarry := by
  intro f s hn h0
  have hsign := signOf_encbf16_of_rounded hn h0
  have hmag := magnitudeOf_encbf16_of_rounded hn h0
  have hle := magnitudeOf_binary32_le hn
  refine ⟨encbf16 f, rfl, hsign, fun hi => ?_, fun h => hmag.trans (roundShift_sixteen_of_ge h hle),
    fun ⟨h, h'⟩ => hmag.trans (roundShift_sixteen_of_between h h')⟩
  have hinf : magnitudeOf .binary32 f = 0x7F800000 := (isInfinity_iff .binary32 f).mp hi
  refine eq_of_sign_of_magnitude .bfloat16 rfl (hsign.trans (signOf_extractLsb'_high f).symm) ?_
  rw [hmag, magnitudeOf_extractLsb'_high, hinf]
  rfl

end Sys2Proof.Machine
end

section
/-! SUPPORT. A zero from its sign, and a bfloat16 pattern with sixteen zeros below it, which is the same number in binary32
(10_state.md R29, R30; 43_bfloat16.md R80). -/

namespace Sys2Proof.Machine

/-- A zero has nothing below its sign (R30). -/
theorem magnitudeOf_of_isZero (F : Format) {w : Nat} {p : BitVec w} (h : isZero F p = true) : magnitudeOf F p = 0 := by
  rw [isZero, beq_iff_eq, classify] at h
  split_ifs at h with h0 hm
  rw [← Nat.div_add_mod (magnitudeOf F p) (2 ^ (descriptor F).mantissaBits), magnitudeOf_div, magnitudeOf_mod, h0, hm, Nat.mul_zero]

/-- The zeros of binary32, by their sign (R30). -/
theorem eq_of_isZero_binary32 {f : Word32} (h : isZero .binary32 f = true) :
    f = if signOf .binary32 f then 0x80000000 else 0x00000000 := by
  have hmag : magnitudeOf .binary32 f = 0 := magnitudeOf_of_isZero .binary32 h
  refine eq_of_sign_of_magnitude .binary32 rfl ?_ ?_
  · cases signOf .binary32 f <;> rfl
  · rw [hmag]
    cases signOf .binary32 f <;> rfl

theorem isNaN_append_zeros (q : Word16) : isNaN .binary32 (q ++ 0#16) = isNaN .bfloat16 q := by
  rw [isNaN, isNaN, classify_append_zeros]

theorem signOf_append_zeros (q : Word16) : signOf .binary32 (q ++ 0#16) = signOf .bfloat16 q :=
  BitVec.getLsbD_append

/-- Widening is exact, the unit being 2^16 times smaller (R80). -/
theorem scaledMagnitude_append_zeros (q : Word16) (h0 : exponentOf .bfloat16 q ≠ 0) :
    scaledMagnitude .binary32 (q ++ 0#16) = scaledMagnitude .bfloat16 q * 2 ^ 16 := by
  obtain ⟨hexp, hmant⟩ := fields_append_zeros q
  have hnarrow : scaledMagnitude .bfloat16 q = (2 ^ 7 + mantissaOf .bfloat16 q) * 2 ^ (exponentOf .bfloat16 q - 1) := if_neg h0
  rw [scaledMagnitude_binary32 _ (by rwa [hexp]), hexp, hmant, hnarrow, Nat.mul_right_comm, show 2 ^ 23 = 2 ^ 7 * 2 ^ 16 from rfl,
    ← Nat.add_mul]

/-- A normal number has one value in both formats (R29). -/
theorem val_append_zeros (q : Word16) (h0 : exponentOf .bfloat16 q ≠ 0) : val .binary32 (q ++ 0#16) = val .bfloat16 q := by
  have hunits : unitExponent .binary32 = unitExponent .bfloat16 + 16 := rfl
  rw [val_eq, val_eq, signOf_append_zeros, scaledMagnitude_append_zeros q h0, hunits, pow_add, Nat.cast_mul, Nat.cast_pow,
    Nat.cast_ofNat, ← mul_assoc]
  exact mul_div_mul_right _ _ (by positivity)

/-- A pattern with sixteen zero low bits is its upper half, widened. -/
theorem eq_append_zeros {f : Word32} (h : f.toNat % 2 ^ 16 = 0) : f = f.extractLsb' 16 16 ++ 0#16 := by
  apply BitVec.eq_of_toNat_eq
  rw [BitVec.toNat_append, BitVec.toNat_ofNat, Nat.zero_mod, Nat.or_zero, Nat.shiftLeft_eq, BitVec.extractLsb'_toNat,
    Nat.shiftRight_eq_div_pow]
  omega

end Sys2Proof.Machine
end

section
/-! SUPPORT. ENCBF16 and DECBF16 on the patterns with sixteen zero low bits, where both only quiet NaNs and flush subnormals
(43_bfloat16.md R75, R80, R81). -/

namespace Sys2Proof.Machine

/-- What a bfloat16 pattern is after either conversion: a NaN with its quiet bit set, the zero of a subnormal's sign, or itself.
`encbf16_append_zeros` and `decbf16_eq_append` tie it to the model. -/
def bf16Settled (q : Word16) : Word16 :=
  if isNaN .bfloat16 q then q ||| 0x0040#16
  else if isSubnormal .bfloat16 q then q &&& 0x8000#16
  else q

theorem bf16Settled_of_isNaN {q : Word16} (hn : isNaN .bfloat16 q = true) : bf16Settled q = q ||| 0x0040#16 :=
  if_pos hn

theorem bf16Settled_of_isSubnormal {q : Word16} (hs : isSubnormal .bfloat16 q = true) : bf16Settled q = q &&& 0x8000#16 := by
  have hn : ¬ isNaN .bfloat16 q = true := by
    rw [isNaN, beq_iff_eq.mp hs]
    decide
  rw [bf16Settled, if_neg hn, if_pos hs]

theorem bf16Settled_of_kept {q : Word16} (hn : isNaN .bfloat16 q = false) (hs : isSubnormal .bfloat16 q = false) :
    bf16Settled q = q := by
  simp [bf16Settled, hn, hs]

/-- A zero is nothing but its sign, so flushing leaves it (R77, R81). -/
theorem bf16Settled_of_exponent_zero {q : Word16} (h0 : exponentOf .bfloat16 q = 0) : bf16Settled q = q &&& 0x8000#16 := by
  by_cases hm : mantissaOf .bfloat16 q = 0
  · have hclass : classify .bfloat16 q = .zero := by rw [classify, if_pos h0, if_pos hm]
    have hmag := magnitudeOf_of_isZero .bfloat16 (beq_iff_eq.mpr hclass)
    rw [bf16Settled_of_kept (by rw [isNaN, hclass]; rfl) (by rw [isSubnormal, hclass]; rfl), and_signMask]
    refine eq_of_sign_of_magnitude .bfloat16 rfl ?_ ?_
    · cases signOf .bfloat16 q <;> rfl
    · rw [hmag]
      cases signOf .bfloat16 q <;> rfl
  · exact bf16Settled_of_isSubnormal (by rw [isSubnormal, classify, if_pos h0, if_neg hm]; rfl)

/-- A pattern that is no NaN with a nonzero exponent field is a normal number or an infinity (R30). -/
theorem bf16Settled_of_exponent_ne_zero {q : Word16} (hn : isNaN .bfloat16 q = false) (h0 : exponentOf .bfloat16 q ≠ 0) :
    bf16Settled q = q :=
  bf16Settled_of_kept hn (beq_eq_false_iff_ne.mpr fun h => h0 (exponentOf_of_subnormal .bfloat16 h))

/-- With nothing in the lower half there is nothing to round (R75). -/
theorem encbf16Round_append_zeros (q : Word16) : encbf16Round (q ++ 0#16) = q := by
  have hhigh : (q ++ 0#16).extractLsb' 16 16 = q := BitVec.extractLsb'_append_eq_left
  have hlow : (q ++ 0#16).extractLsb' 0 16 = 0#16 := BitVec.extractLsb'_append_eq_right
  simp only [encbf16Round, hhigh, hlow]
  exact if_neg (by simp)

/-- ENCBF16 settles the upper half, the lower one being zero (R75). -/
theorem encbf16_append_zeros (q : Word16) : encbf16 (q ++ 0#16) = bf16Settled q := by
  have hexp := (fields_append_zeros q).1
  have hhigh : (q ++ 0#16).extractLsb' 16 16 = q := BitVec.extractLsb'_append_eq_left
  cases hn : isNaN .bfloat16 q with
  | true => rw [encbf16_of_isNaN ((isNaN_append_zeros q).trans hn), hhigh, bf16Settled_of_isNaN hn]
  | false =>
    by_cases h0 : exponentOf .bfloat16 q = 0
    · rw [encbf16_of_exponent_zero (hexp.trans h0), hhigh, bf16Settled_of_exponent_zero h0]
    · rw [encbf16_of_rounded ((isNaN_append_zeros q).trans hn) (by rwa [hexp]), encbf16Round_append_zeros,
        bf16Settled_of_exponent_ne_zero hn h0]

/-- DECBF16 widens the settled pattern (R80, R81). -/
theorem decbf16_eq_append (p : Word16) : decbf16 p = bf16Settled p ++ 0#16 := by
  obtain ⟨hexp, hmant⟩ := fields_append_zeros p
  have hmax : exponent32 (p ++ 0#16) = 0xFF#8 ↔ exponentOf .bfloat16 p = exponentMax .bfloat16 := by
    rw [← BitVec.toNat_inj, exponent32_toNat, hexp]
    rfl
  have hzero : exponent32 (p ++ 0#16) = 0 ↔ exponentOf .bfloat16 p = 0 := by
    rw [← BitVec.toNat_inj, exponent32_toNat, hexp]
    rfl
  have hpayload : mantissa32 (p ++ 0#16) = 0 ↔ mantissaOf .bfloat16 p = 0 := by
    rw [← BitVec.toNat_inj, mantissa32_toNat, hmant]
    exact Nat.mul_eq_zero.trans (or_iff_left (by decide))
  have hflush : (p ++ 0#16) &&& 0x80000000#32 = (p &&& 0x8000#16) ++ 0#16 := by
    rw [show 0x80000000#32 = 0x8000#16 ++ 0#16 from rfl, BitVec.and_append, BitVec.and_self]
  simp only [decbf16, hmax, hzero, hpayload, append_zeros_or_quietBit, hflush]
  cases hn : isNaN .bfloat16 p with
  | true =>
    obtain ⟨hfull, hm⟩ := fields_of_isNaN .bfloat16 hn
    rw [if_pos hfull, if_neg hm, bf16Settled_of_isNaN hn]
  | false =>
    by_cases h0 : exponentOf .bfloat16 p = 0
    · rw [if_neg (by rw [h0]; decide), if_pos h0, bf16Settled_of_exponent_zero h0]
    · rw [bf16Settled_of_exponent_ne_zero hn h0, if_neg h0]
      by_cases hfull : exponentOf .bfloat16 p = exponentMax .bfloat16
      · have hm : mantissaOf .bfloat16 p = 0 := by
          by_contra hm
          rw [isNaN, classify, if_neg h0, if_pos hfull, if_neg hm] at hn
          cases hn
        rw [if_pos hfull, if_pos hm]
      · rw [if_neg hfull]

/-- The class of a settled pattern: subnormals are zeros now, every other class is kept (R31). -/
theorem classify_bf16Settled (q : Word16) :
    classify .bfloat16 (bf16Settled q) = if classify .bfloat16 q = .subnormal then .zero else classify .bfloat16 q := by
  rw [← classify_append_zeros, ← decbf16_eq_append, classify_decbf16]

/-- A second conversion changes nothing more (R82). -/
theorem bf16Settled_bf16Settled (q : Word16) : bf16Settled (bf16Settled q) = bf16Settled q := by
  have hclass := classify_bf16Settled q
  by_cases hs : classify .bfloat16 q = .subnormal
  · rw [if_pos hs] at hclass
    exact bf16Settled_of_kept (by rw [isNaN, hclass]; rfl) (by rw [isSubnormal, hclass]; rfl)
  · rw [if_neg hs] at hclass
    cases hn : isNaN .bfloat16 q with
    | true =>
      rw [bf16Settled_of_isNaN (by rw [isNaN, hclass]; exact hn), bf16Settled_of_isNaN hn, BitVec.or_assoc, BitVec.or_self]
    | false => rw [bf16Settled_of_kept hn (beq_eq_false_iff_ne.mpr hs), bf16Settled_of_kept hn (beq_eq_false_iff_ne.mpr hs)]

/-- Quieting and flushing leave the sign bit. -/
theorem signOf_bf16Settled (q : Word16) : signOf .bfloat16 (bf16Settled q) = signOf .bfloat16 q := by
  unfold bf16Settled
  split_ifs
  · exact BitVec.getLsbD_or.trans (Bool.or_false _)
  · exact BitVec.getLsbD_and.trans (Bool.and_true _)
  · rfl

/-- DECBF16 keeps the sign (R80, R81). -/
theorem signOf_decbf16 (p : Word16) : signOf .binary32 (decbf16 p) = signOf .bfloat16 p := by
  rw [decbf16_eq_append, signOf_append_zeros, signOf_bf16Settled]

end Sys2Proof.Machine
end

section
/-! The statements about DECBF16 and the round trips through bfloat16 (43_bfloat16.md R80 to R82). -/

namespace Sys2Proof.Machine

/-- DECBF16 drives its result, and nothing else (R80). -/
theorem exec_decbf16_eq (p : Word16) (s : State) : exec (.decbf16 p) s = .next { s with y := decbf16 p } := by
  rw [exec_decbf16, resultLane_word32, State.driveY]

/-- Settles O33: a normal pattern is widened, an infinity or a zero is fixed by its class and its sign. -/
theorem decBf16WidensNormalsAndFlushesSubnormals : Obligations.DecBf16WidensNormalsAndFlushesSubnormals := by
  intro p s
  have hclass := classify_decbf16 p
  refine ⟨fun h => ⟨decbf16 p, exec_decbf16_eq p s, ?_, by rw [hclass, h]; rfl⟩, fun h => ?_, fun h => ?_⟩
  · have hkept : bf16Settled p = p := bf16Settled_of_kept (by rw [isNaN, h]; rfl) (by rw [isSubnormal, h]; rfl)
    rw [decbf16_eq_append, hkept, val_append_zeros p (exponentOf_of_normal .bfloat16 p h).1]
  · have hinf : isInfinity .binary32 (decbf16 p) = true := by rw [isInfinity, hclass, h]; rfl
    rw [exec_decbf16_eq, eq_of_isInfinity_binary32 hinf, signOf_decbf16]
  · have hzero : isZero .binary32 (decbf16 p) = true := by
      rw [isZero, hclass]
      rcases h with h | h <;> rw [h] <;> rfl
    rw [exec_decbf16_eq, eq_of_isZero_binary32 hzero, signOf_decbf16]

/-- Settles O34: the pattern with bit 6 set, above sixteen zeros. -/
theorem decBf16KeepsNaN : Obligations.DecBf16KeepsNaN := by
  intro p s hn
  have hdec : decbf16 p = (p ||| 0x0040#16) ++ 0#16 := by rw [decbf16_eq_append, bf16Settled_of_isNaN hn]
  have hpayload : ∀ j < 6, (0x0040#16).getLsbD j = false := by decide
  refine ⟨decbf16 p, exec_decbf16_eq p s, ?_, signOf_decbf16 p, ?_, fun j hj => ?_, ?_⟩
  · rw [isNaN, classify_decbf16, beq_iff_eq.mp hn]
    rfl
  · rw [hdec, BitVec.getLsbD_append, if_neg (by decide), BitVec.getLsbD_or]
    exact Bool.or_true _
  · rw [hdec, BitVec.getLsbD_append, if_neg (by omega), Nat.add_sub_cancel_left, BitVec.getLsbD_or, hpayload j hj, Bool.or_false]
  · rw [hdec, BitVec.toNat_append, BitVec.toNat_ofNat, Nat.zero_mod, Nat.or_zero, Nat.shiftLeft_eq, Nat.mul_mod_left]

/-- A pattern with its quiet bit set is itself with its quiet bit set. -/
theorem or_quietBit_eq_self {p : Word16} (h : p.getLsbD 6 = true) : p ||| 0x0040#16 = p := by
  have hother : ∀ i < 16, i ≠ 6 → (0x0040#16).getLsbD i = false := by decide
  refine BitVec.eq_of_getLsbD_eq fun i hi => ?_
  rw [BitVec.getLsbD_or]
  by_cases h6 : i = 6
  · rw [h6, h, Bool.true_or]
  · rw [hother i hi h6, Bool.or_false]

/-- Settles O35: both operations settle a pattern, and a settled one they leave. -/
theorem bfloat16RoundTripWithItsExceptions : Obligations.Bfloat16RoundTripWithItsExceptions := by
  have hback (p : Word16) (s : State) :
      exec (.encbf16 (decbf16 p)) s = .next { s with y := (bf16Settled p).setWidth 32 } := by
    rw [exec_encbf16, decbf16_eq_append, encbf16_append_zeros, bf16Settled_bf16Settled]
    rfl
  refine ⟨fun p s => ⟨_, exec_decbf16_eq p s, fun ⟨hs, hq⟩ => ?_, fun hs => ?_, fun ⟨hn, _⟩ => ?_⟩,
    fun f s hlow hn hs => ?_⟩
  · have hkept : bf16Settled p = p := by
      cases hn : isNaN .bfloat16 p with
      | true => rw [bf16Settled_of_isNaN hn, or_quietBit_eq_self (hq hn)]
      | false => exact bf16Settled_of_kept hn hs
    rw [hback, hkept]
  · rw [hback, bf16Settled_of_isSubnormal hs]
  · rw [hback, bf16Settled_of_isNaN hn]
  · have hf := eq_append_zeros hlow
    have hkept : bf16Settled (f.extractLsb' 16 16) = f.extractLsb' 16 16 := by
      rw [hf] at hn hs
      exact bf16Settled_of_kept ((isNaN_append_zeros _).symm.trans hn) (by rwa [isSubnormal, ← classify_append_zeros])
    have henc : encbf16 f = f.extractLsb' 16 16 := by
      conv_lhs => rw [hf]
      rw [encbf16_append_zeros, hkept]
    refine ⟨_, exec_encbf16 f s, ?_⟩
    rw [exec_decbf16_eq, driveY_y, resultLane, extractLsb'_setWidth_self _ (by decide), henc, decbf16_eq_append, hkept, ← hf]

end Sys2Proof.Machine
end

section
/-! SUPPORT. ENC8 on all inputs, saturation included, as the greatest micro-float magnitude not above the input's (44_float8_e4m3.md R83,
R86, R91). -/

namespace Sys2Proof.Machine

/-- With the exponent field of all ones, only an infinity is no NaN (R30). -/
theorem mantissaOf_eq_zero_of_not_isNaN (F : Format) {w : Nat} {p : BitVec w} (hn : isNaN F p = false)
    (he : exponentOf F p = exponentMax F) : mantissaOf F p = 0 := by
  by_contra hm
  have hmax := (descriptor_regular F).2.1
  rw [isNaN, classify, if_neg (by omega), if_pos he, if_neg hm] at hn
  cases hn

/-- Every exponent field from 135 on is a magnitude of 2^8 or more, in units of 2^-149 (R86). -/
theorem exponent_ge_135_iff_scaledMagnitude (f : Word32) :
    135 ≤ exponentOf .binary32 f ↔ 2 ^ 157 ≤ scaledMagnitude .binary32 f := by
  have hvalue : 2 ^ 157 = patternValue 23 (135 * 2 ^ 23) := by decide
  have hexp : exponentOf .binary32 f = magnitudeOf .binary32 f / 2 ^ 23 := (magnitudeOf_div .binary32 f).symm
  rw [hexp, Nat.le_div_iff_mul_le (by norm_num), scaledMagnitude_eq, hvalue]
  exact (patternValue_strictMono 23).le_iff_le.symm

/-- The same in rationals (R86). -/
theorem exponent_ge_135_iff_abs_val (f : Word32) : 135 ≤ exponentOf .binary32 f ↔ 256 ≤ |val .binary32 f| := by
  rw [exponent_ge_135_iff_scaledMagnitude, abs_val, le_div_iff₀ (by positivity), ← Nat.cast_le (α := ℚ)]
  have hscale : ((2 ^ 157 : Nat) : ℚ) = 256 * 2 ^ unitExponent .binary32 := by norm_num [unitExponent, descriptor]
  rw [hscale]

/-- From exponent field 135 on the seven bits below the sign are the infinity's (R86). -/
theorem magnitudeOf_enc8_of_ge {f : Word32} (he : 135 ≤ exponentOf .binary32 f) : magnitudeOf .e4m3 (enc8 f) = 0x78 := by
  have hsat : enc8Magnitude (exponent32 f).toNat (f.extractLsb' 20 3).toNat = 0x78 := by
    rw [exponent32_toNat, enc8Magnitude, if_neg (by omega), if_pos (by omega)]
  refine (magnitudeOf_withSign .e4m3 _ _ rfl).trans ?_
  rw [hsat]
  rfl

/-- No result lies above the infinity (R86). -/
theorem magnitudeOf_enc8_le (f : Word32) : magnitudeOf .e4m3 (enc8 f) ≤ 0x78 := by
  rcases Nat.lt_or_ge (exponentOf .binary32 f) 135 with he | he
  · exact ((isFinite_iff .e4m3 _).mp (isFinite_enc8 f he)).le
  · exact (magnitudeOf_enc8_of_ge he).le

theorem isNaN_enc8 (f : Word32) : isNaN .e4m3 (enc8 f) = false :=
  Bool.eq_false_iff.mpr fun hn => ((isNaN_iff .e4m3 _).mp hn).not_ge (magnitudeOf_enc8_le f)

/-- ENC8 reaches a magnitude exactly when the input does (R91), the input's unit being 2^140 times smaller. -/
theorem le_magnitudeOf_enc8_iff (f : Word32) {x : Nat} (hx : x ≤ 0x78) :
    x ≤ magnitudeOf .e4m3 (enc8 f) ↔ patternValue 3 x * 2 ^ 140 ≤ scaledMagnitude .binary32 f := by
  have hmono := patternValue_strictMono 3
  rcases Nat.lt_or_ge (exponentOf .binary32 f) 135 with he | he
  · obtain ⟨hlow, hhigh⟩ := enc8_brackets f he
    exact ⟨fun h => (Nat.mul_le_mul_right _ (hmono.monotone h)).trans hlow,
      fun h => Nat.le_of_lt_succ (hmono.lt_iff_lt.mp (lt_of_mul_lt_mul_right' (h.trans_lt hhigh)))⟩
  · have htop : patternValue 3 0x78 * 2 ^ 140 = 2 ^ 157 := by decide
    have hx' : patternValue 3 x * 2 ^ 140 ≤ 2 ^ 157 := htop ▸ Nat.mul_le_mul_right _ (hmono.monotone hx)
    exact iff_of_true (hx.trans_eq (magnitudeOf_enc8_of_ge he).symm)
      (hx'.trans ((exponent_ge_135_iff_scaledMagnitude f).mp he))

/-- ENC8 is monotonic on magnitudes (R91). -/
theorem magnitudeOf_enc8_mono {f g : Word32} (h : magnitudeOf .binary32 f ≤ magnitudeOf .binary32 g) :
    magnitudeOf .e4m3 (enc8 f) ≤ magnitudeOf .e4m3 (enc8 g) := by
  rw [le_magnitudeOf_enc8_iff g (magnitudeOf_enc8_le f)]
  refine ((le_magnitudeOf_enc8_iff f (magnitudeOf_enc8_le f)).mp le_rfl).trans ?_
  rw [scaledMagnitude_eq, scaledMagnitude_eq]
  exact (patternValue_strictMono _).monotone h

/-- The canonical infinities of E4M3, by their sign (R30). -/
theorem eq_of_isInfinity_e4m3 {q : Word8} (h : isInfinity .e4m3 q = true) : q = if signOf .e4m3 q then 0xF8 else 0x78 := by
  have hmag := (isInfinity_iff .e4m3 q).mp h
  refine eq_of_sign_of_magnitude .e4m3 rfl ?_ ?_
  · cases signOf .e4m3 q <;> rfl
  · rw [hmag]
    cases signOf .e4m3 q <;> rfl

theorem isInfinity_enc8_of_ge {f : Word32} (he : 135 ≤ exponentOf .binary32 f) : isInfinity .e4m3 (enc8 f) = true :=
  (isInfinity_iff .e4m3 _).mpr (magnitudeOf_enc8_of_ge he)

/-- Up to exponent field 120 the result is a shifted significand of fewer than four bits, with exponent field 0 (R84). -/
theorem fields_enc8_of_le {f : Word32} (he : exponentOf .binary32 f ≤ 120) :
    exponentOf .e4m3 (enc8 f) = 0 ∧
    mantissaOf .e4m3 (enc8 f) = enc8Significand (exponentOf .binary32 f) (mantissaOf .binary32 f) := by
  have hm := mantissaOf_binary32_lt f
  have hmag := magnitudeOf_enc8 f (by omega)
  rw [Nat.sub_eq_zero_of_le (by omega), Nat.zero_mul, Nat.zero_add] at hmag
  have hlt : enc8Significand (exponentOf .binary32 f) (mantissaOf .binary32 f) < 2 ^ 3 := by
    have hshift : 2 ^ 1 ≤ 2 ^ (121 - exponentOf .binary32 f) := Nat.pow_le_pow_right (by norm_num) (by omega)
    refine (Nat.div_le_div_left hshift (by norm_num)).trans_lt ?_
    omega
  rw [← magnitudeOf_div, ← magnitudeOf_mod, hmag]
  exact ⟨Nat.div_eq_of_lt hlt, Nat.mod_eq_of_lt hlt⟩

end Sys2Proof.Machine
end

section
/-! The statements about ENC8's saturation and its subnormal results (44_float8_e4m3.md R84, R86). -/

namespace Sys2Proof.Machine

/-- Settles O37: at exponent field 135 ENC8 reaches the infinity's magnitude and never goes above it. -/
theorem enc8SaturatesToInfinity : Obligations.Enc8SaturatesToInfinity := by
  refine fun f s => ⟨fun he => ?_, fun _ => exponent_ge_135_iff_abs_val f, enc8 f, rfl, fun h15 => ?_⟩
  · rw [exec_enc8, eq_of_isInfinity_e4m3 (isInfinity_enc8_of_ge he), signOf_enc8]
    cases signOf .binary32 f <;> rfl
  · exact mantissaOf_eq_zero_of_not_isNaN .e4m3 (isNaN_enc8 f) h15

/-- Settles O38: the mantissa field is `enc8Significand`, evaluated at each shift. -/
theorem enc8SubnormalResults : Obligations.Enc8SubnormalResults := by
  intro f s he
  obtain ⟨hexp, hmant⟩ := fields_enc8_of_le he
  have hm := mantissaOf_binary32_lt f
  refine ⟨enc8 f, rfl, signOf_enc8 f, hexp, fun h => ?_, fun h => ?_, fun h => ?_, fun h => ?_⟩
  · rw [hmant, h, enc8Significand]
    omega
  · rw [hmant, h, enc8Significand]
    omega
  · rw [hmant, h, enc8Significand]
    omega
  · rw [hmant, enc8Significand_eq_zero hm (by omega)]

end Sys2Proof.Machine
end

section
/-! SUPPORT. The class, the fields and the value of DEC8's result: no value is rounded (44_float8_e4m3.md R88 to R90). -/

namespace Sys2Proof.Machine

/-- DEC8 drives its result, and nothing else (R88). -/
theorem exec_dec8_eq (p : Word8) (s : State) : exec (.dec8 p) s = .next { s with y := dec8 p } := by
  rw [exec_dec8, resultLane_word32, State.driveY]

/-- DEC8 keeps the sign (R88). -/
theorem signOf_dec8 (p : Word8) : signOf .binary32 (dec8 p) = signOf .e4m3 p :=
  (signOf_withSign .binary32 _ _ rfl).trans (sign8_getLsbD p)

/-- The finite patterns are those of every other class than infinity and NaN (R30). -/
theorem isFinite_eq_not_nan_and_not_infinity (F : Format) {w : Nat} (p : BitVec w) :
    isFinite F p = (!isNaN F p && !isInfinity F p) := by
  rw [Bool.eq_iff_iff, Bool.and_eq_true, Bool.not_eq_true', Bool.not_eq_true']
  exact ⟨not_nan_not_infinity_of_isFinite F p, fun ⟨hn, hi⟩ =>
    (isFinite_or_isInfinity_of_not_isNaN F hn).resolve_right (Bool.eq_false_iff.mp hi)⟩

theorem isNaN_dec8 (p : Word8) : isNaN .binary32 (dec8 p) = false := by
  rw [isNaN, classify_dec8]
  cases classify .e4m3 p <;> rfl

/-- Exponent field 15 is an infinity whatever the mantissa (R90). -/
theorem isInfinity_dec8 (p : Word8) : isInfinity .binary32 (dec8 p) = !isFinite .e4m3 p := by
  rw [isFinite_eq_not_nan_and_not_infinity, isInfinity, isNaN, isInfinity, classify_dec8]
  cases classify .e4m3 p <;> rfl

/-- DEC8 makes a binary32 infinity of a micro-float one (R90). -/
theorem isInfinity_dec8_of_isInfinity {p : Word8} (hi : isInfinity .e4m3 p = true) : isInfinity .binary32 (dec8 p) = true := by
  rw [isInfinity_dec8, isFinite_eq_not_nan_and_not_infinity, hi, Bool.not_true, Bool.and_false, Bool.not_false]

theorem isFinite_dec8 (p : Word8) : isFinite .binary32 (dec8 p) = isFinite .e4m3 p := by
  rw [isFinite_eq_not_nan_and_not_infinity, isNaN_dec8, isInfinity_dec8, Bool.not_not, Bool.not_false, Bool.true_and]

theorem isZero_dec8 (p : Word8) : isZero .binary32 (dec8 p) = isZero .e4m3 p := by
  rw [isZero, isZero, classify_dec8]
  cases classify .e4m3 p <;> rfl

theorem exponent8_eq_zero_iff (p : Word8) : exponent8 p = 0 ↔ exponentOf .e4m3 p = 0 := by
  rw [← exponent8_toNat, ← BitVec.toNat_inj]
  rfl

theorem exponent8_eq_max_iff (p : Word8) : exponent8 p = 15 ↔ exponentOf .e4m3 p = 15 := by
  rw [← exponent8_toNat, ← BitVec.toNat_inj]
  rfl

theorem mantissa8_eq_zero_iff (p : Word8) : mantissa8 p = 0 ↔ mantissaOf .e4m3 p = 0 := by
  rw [← mantissa8_toNat, ← BitVec.toNat_inj]
  rfl

theorem mantissaOf_e4m3_lt (p : Word8) : mantissaOf .e4m3 p < 2 ^ 3 :=
  Nat.mod_lt _ (Nat.two_pow_pos 3)

/-- A result packed from an exponent field and the micro-float's mantissa, shifted to some place in the wider field. -/
theorem fields_dec8_of_magnitude {p : Word8} {e n : Nat} (he : e < 256)
    (h : dec8Magnitude p = BitVec.ofNat 8 e ++ ((mantissa8 p).setWidth 23 <<< n)) :
    exponentOf .binary32 (dec8 p) = e ∧ mantissaOf .binary32 (dec8 p) = mantissaOf .e4m3 p * 2 ^ n % 2 ^ 23 := by
  obtain ⟨hexp, hmant⟩ := fields_withSign_append .binary32 (sign8 p) (BitVec.ofNat 8 e) ((mantissa8 p).setWidth 23 <<< n) rfl rfl
  rw [dec8, h, hexp, hmant, BitVec.toNat_ofNat, BitVec.toNat_shiftLeft, BitVec.toNat_setWidth_of_le (by decide), mantissa8_toNat,
    Nat.shiftLeft_eq]
  exact ⟨Nat.mod_eq_of_lt he, rfl⟩

/-- A number with its leading one is rebiased, and its mantissa stands at the top of the field (R88). -/
theorem fields_dec8_of_normal {p : Word8} (h0 : exponentOf .e4m3 p ≠ 0) (hmax : exponentOf .e4m3 p ≠ 15) :
    exponentOf .binary32 (dec8 p) = exponentOf .e4m3 p + 120 ∧
    mantissaOf .binary32 (dec8 p) = mantissaOf .e4m3 p * 2 ^ 20 := by
  have hm := mantissaOf_e4m3_lt p
  have he : exponentOf .e4m3 p ≤ 15 := exponentOf_lt .e4m3 p
  have hmag : dec8Magnitude p = BitVec.ofNat 8 (exponentOf .e4m3 p + 120) ++ ((mantissa8 p).setWidth 23 <<< 20) := by
    rw [dec8Magnitude, if_neg ((exponent8_eq_zero_iff p).not.mpr h0), if_neg ((exponent8_eq_max_iff p).not.mpr hmax),
      exponent8_toNat]
  obtain ⟨hexp, hmant⟩ := fields_dec8_of_magnitude (by omega) hmag
  exact ⟨hexp, hmant.trans (Nat.mod_eq_of_lt (by omega))⟩

/-- A subnormal is normalised: the leading one of its mantissa, at position `k`, becomes the hidden one (R89). -/
theorem fields_dec8_of_subnormal {p : Word8} {k : Nat} (h0 : exponentOf .e4m3 p = 0) (hk : 2 ^ k ≤ mantissaOf .e4m3 p)
    (hk' : mantissaOf .e4m3 p < 2 ^ (k + 1)) :
    exponentOf .binary32 (dec8 p) = 118 + k ∧
    mantissaOf .binary32 (dec8 p) = (mantissaOf .e4m3 p - 2 ^ k) * 2 ^ (23 - k) := by
  have hne : mantissaOf .e4m3 p ≠ 0 := by have := Nat.two_pow_pos k; omega
  have hmsb : msb (mantissa8 p).toNat = k := by
    rw [mantissa8_toNat]
    exact (Nat.log2_eq_iff hne).mpr ⟨hk, hk'⟩
  have hk3 : k < 3 := hmsb ▸ msb_lt_width ((mantissa8_eq_zero_iff p).not.mpr hne)
  have hmag : dec8Magnitude p = BitVec.ofNat 8 (118 + k) ++ ((mantissa8 p).setWidth 23 <<< (23 - k)) := by
    rw [dec8Magnitude, if_pos ((exponent8_eq_zero_iff p).mpr h0), if_neg ((mantissa8_eq_zero_iff p).not.mpr hne), hmsb]
  obtain ⟨hexp, hmant⟩ := fields_dec8_of_magnitude (by omega) hmag
  refine ⟨hexp, hmant.trans ?_⟩
  interval_cases k <;> omega

/-- A binary32 significand normalised to its leading one at position `k` stands for the same magnitude, in a unit 2^140 times smaller. -/
theorem scaledMagnitude_of_leadingOne {f : Word32} {q k d : Nat} (hk : 2 ^ k ≤ q) (hk23 : k ≤ 23)
    (he : exponentOf .binary32 f = 118 + k + d) (hm : mantissaOf .binary32 f = (q - 2 ^ k) * 2 ^ (23 - k)) :
    scaledMagnitude .binary32 f = q * 2 ^ d * 2 ^ 140 := by
  have hfull : 2 ^ 23 = 2 ^ k * 2 ^ (23 - k) := by rw [← pow_add, show k + (23 - k) = 23 by omega]
  rw [scaledMagnitude_binary32 f (by omega), he, hm, hfull, ← Nat.add_mul, Nat.add_sub_cancel' hk, Nat.mul_assoc, Nat.mul_assoc,
    ← pow_add, ← pow_add, show 23 - k + (118 + k + d - 1) = d + 140 by omega]

/-- Nothing is rounded: the exact magnitude is the same, in a unit 2^140 times smaller (R88). -/
theorem scaledMagnitude_dec8 {p : Word8} (hf : isFinite .e4m3 p = true) :
    scaledMagnitude .binary32 (dec8 p) = scaledMagnitude .e4m3 p * 2 ^ 140 := by
  by_cases h0 : exponentOf .e4m3 p = 0
  · have hn : scaledMagnitude .e4m3 p = mantissaOf .e4m3 p * 2 ^ 0 := (if_pos h0).trans (Nat.mul_one _).symm
    by_cases hm : mantissaOf .e4m3 p = 0
    · have hz : isZero .binary32 (dec8 p) = true := by
        rw [isZero_dec8, isZero_iff_scaledMagnitude .e4m3 p hf, hn, hm, Nat.zero_mul]
      rw [(isZero_iff_scaledMagnitude .binary32 _ (by rwa [isFinite_dec8])).mp hz, hn, hm, Nat.zero_mul, Nat.zero_mul]
    · have hk : 2 ^ Nat.log2 (mantissaOf .e4m3 p) ≤ mantissaOf .e4m3 p := Nat.log2_self_le hm
      have hk3 : Nat.log2 (mantissaOf .e4m3 p) < 3 := (Nat.log2_lt hm).mpr (mantissaOf_e4m3_lt p)
      obtain ⟨hexp, hmant⟩ := fields_dec8_of_subnormal h0 hk Nat.lt_log2_self
      rw [hn]
      exact scaledMagnitude_of_leadingOne hk (by omega) hexp hmant
  · have hn : scaledMagnitude .e4m3 p = (2 ^ 3 + mantissaOf .e4m3 p) * 2 ^ (exponentOf .e4m3 p - 1) := if_neg h0
    obtain ⟨hexp, hmant⟩ := fields_dec8_of_normal h0 (bne_iff_ne.mp hf)
    rw [hn]
    exact scaledMagnitude_of_leadingOne (k := 3) (by omega) (by norm_num) (by omega) (by rw [hmant, Nat.add_sub_cancel_left])

/-- The value is kept (R88). -/
theorem val_dec8 {p : Word8} (hf : isFinite .e4m3 p = true) : val .binary32 (dec8 p) = val .e4m3 p := by
  have hunits : unitExponent .binary32 = unitExponent .e4m3 + 140 := rfl
  rw [val_eq, val_eq, signOf_dec8, scaledMagnitude_dec8 hf, hunits, pow_add, Nat.cast_mul, Nat.cast_pow, Nat.cast_ofNat, ← mul_assoc]
  exact mul_div_mul_right _ _ (by positivity)

end Sys2Proof.Machine
end

section
/-! The statements about DEC8 (44_float8_e4m3.md R88 to R90). -/

namespace Sys2Proof.Machine

/-- Settles O39: sign and value are kept, and what is not finite becomes an infinity. -/
theorem dec8IsExactAndField15IsInfinity : Obligations.Dec8IsExactAndField15IsInfinity := by
  refine fun p s => ⟨dec8 p, exec_dec8_eq p s, signOf_dec8 p, fun h => ?_, fun h => ?_⟩
  · have hf : isFinite .e4m3 p = true := bne_iff_ne.mpr h
    exact ⟨(isFinite_dec8 p).trans hf, val_dec8 hf⟩
  · have hf : isFinite .e4m3 p = false := bne_eq_false_iff_eq.mpr h
    exact (isInfinity_iff .binary32 _).mp (by rw [isInfinity_dec8, hf]; rfl)

/-- Settles O40: a zero stays a zero, and a subnormal has the fields of `fields_dec8_of_subnormal`. -/
theorem dec8ZerosAndSubnormals : Obligations.Dec8ZerosAndSubnormals := by
  refine fun p s h0 => ⟨dec8 p, exec_dec8_eq p s, signOf_dec8 p, fun hm => ?_, fun k hk hk' => ?_⟩
  · rw [isZero_dec8, isZero, classify, if_pos h0, if_pos hm]
    rfl
  · have hm : mantissaOf .e4m3 p ≠ 0 := by have := Nat.two_pow_pos k; omega
    refine ⟨?_, fields_dec8_of_subnormal h0 hk hk'⟩
    rw [classify_dec8, classify, if_pos h0, if_neg hm]

end Sys2Proof.Machine
end

section
/-! SUPPORT. ENC8 and DEC8 one after the other (44_float8_e4m3.md R91): both keep the sign, and on magnitudes ENC8 undoes DEC8. -/

namespace Sys2Proof.Machine

/-- ENC8 of a magnitude that a micro-float magnitude stands for exactly is that one (R91). -/
theorem magnitudeOf_enc8_of_exact {f : Word32} {p : Word8} (hf : isFinite .e4m3 p = true)
    (hexact : scaledMagnitude .binary32 f = scaledMagnitude .e4m3 p * 2 ^ 140) :
    magnitudeOf .e4m3 (enc8 f) = magnitudeOf .e4m3 p := by
  have hlt : magnitudeOf .e4m3 p < 0x78 := (isFinite_iff .e4m3 p).mp hf
  have hvalue : scaledMagnitude .e4m3 p = patternValue 3 (magnitudeOf .e4m3 p) := scaledMagnitude_eq .e4m3 p
  have hreach : ∀ x ≤ 0x78, x ≤ magnitudeOf .e4m3 (enc8 f) ↔ x ≤ magnitudeOf .e4m3 p := by
    intro x hx
    rw [le_magnitudeOf_enc8_iff f hx, hexact, hvalue, Nat.mul_le_mul_right_iff (Nat.two_pow_pos 140)]
    exact (patternValue_strictMono 3).le_iff_le
  exact le_antisymm ((hreach _ (magnitudeOf_enc8_le f)).mp le_rfl) ((hreach _ hlt.le).mpr le_rfl)

/-- ENC8 of a zero is a zero (R85). -/
theorem magnitudeOf_enc8_of_zero {f : Word32} (h0 : magnitudeOf .binary32 f = 0) : magnitudeOf .e4m3 (enc8 f) = 0 := by
  refine magnitudeOf_enc8_of_exact (p := 0#8) rfl ?_
  rw [scaledMagnitude_eq, h0]
  rfl

/-- ENC8 saturates on an infinity (R86). -/
theorem isInfinity_enc8_of_isInfinity {f : Word32} (hi : isInfinity .binary32 f = true) : isInfinity .e4m3 (enc8 f) = true := by
  have hexp : exponentOf .binary32 f = 255 := by
    rw [← magnitudeOf_div, (isInfinity_iff .binary32 f).mp hi]
    rfl
  exact isInfinity_enc8_of_ge (by omega)

/-- ENC8 undoes DEC8 on every pattern that is no NaN (R91). -/
theorem enc8_dec8_of_not_isNaN {p : Word8} (hn : isNaN .e4m3 p = false) : enc8 (dec8 p) = p := by
  refine eq_of_sign_of_magnitude .e4m3 rfl (by rw [signOf_enc8, signOf_dec8]) ?_
  rcases isFinite_or_isInfinity_of_not_isNaN .e4m3 hn with hf | hi
  · exact magnitudeOf_enc8_of_exact hf (scaledMagnitude_dec8 hf)
  · have hback := isInfinity_enc8_of_isInfinity (isInfinity_dec8_of_isInfinity hi)
    rw [(isInfinity_iff .e4m3 _).mp hback, (isInfinity_iff .e4m3 p).mp hi]

/-- With exponent field 15 the canonical infinity of the sign comes back (R91). -/
theorem enc8_dec8_of_not_isFinite {p : Word8} (hf : isFinite .e4m3 p = false) :
    enc8 (dec8 p) = (p &&& 0x80#8) ||| 0x78#8 := by
  have hdec : isInfinity .binary32 (dec8 p) = true := by
    rw [isInfinity_dec8, hf]
    rfl
  have hsign : p &&& 0x80#8 = if signOf .e4m3 p then 0x80#8 else 0#8 := BitVec.and_twoPow p 7
  rw [eq_of_isInfinity_e4m3 (isInfinity_enc8_of_isInfinity hdec), signOf_enc8, signOf_dec8, hsign]
  cases signOf .e4m3 p <;> rfl

/-- DEC8 undoes ENC8 on an infinity (R91). -/
theorem dec8_enc8_of_isInfinity {f : Word32} (hi : isInfinity .binary32 f = true) : dec8 (enc8 f) = f := by
  have hdec := isInfinity_dec8_of_isInfinity (isInfinity_enc8_of_isInfinity hi)
  rw [eq_of_isInfinity_binary32 hdec, signOf_dec8, signOf_enc8, ← eq_of_isInfinity_binary32 hi]

/-- DEC8 undoes ENC8 on every number that some micro-float pattern stands for (R91). -/
theorem dec8_enc8_of_val_eq {f : Word32} {p : Word8} (hp : isFinite .e4m3 p = true) (hval : val .e4m3 p = val .binary32 f) :
    dec8 (enc8 f) = f := by
  have hexact : scaledMagnitude .binary32 f = scaledMagnitude .e4m3 p * 2 ^ 140 :=
    (scaledMagnitude_eq_of_val_eq .binary32 (hval.symm.trans (val_dec8 hp).symm)).trans (scaledMagnitude_dec8 hp)
  have hmag := magnitudeOf_enc8_of_exact hp hexact
  have hfin : isFinite .e4m3 (enc8 f) = true := by rwa [isFinite_iff, hmag, ← isFinite_iff]
  refine eq_of_sign_of_magnitude .binary32 rfl (by rw [signOf_dec8, signOf_enc8]) (magnitudeOf_eq_of_scaledMagnitude_eq .binary32 ?_)
  rw [scaledMagnitude_dec8 hfin, hexact, scaledMagnitude_eq, hmag, ← scaledMagnitude_eq]

/-- DEC8 after ENC8 reads the byte that ENC8 drove onto `y` (R48). -/
theorem exec_dec8_of_exec_enc8 (f : Word32) (s t : State) :
    exec (.dec8 ((s.driveY (resultLane (enc8 f))).y.extractLsb' 0 8)) t = .next { t with y := dec8 (enc8 f) } := by
  rw [exec_dec8_eq, driveY_y, resultLane, extractLsb'_setWidth_self _ (by decide)]

end Sys2Proof.Machine
end

section
/-! SUPPORT. The order of patterns as numbers (45_comparator.md R93 `fle`) by their signs and magnitudes, in any format. -/

namespace Sys2Proof.Machine

/-- The bits below the sign, counted downward for a negative pattern. `extendedLe_iff` ties it to the order of values. -/
def signedMagnitude (F : Format) {w : Nat} (p : BitVec w) : Int :=
  if signOf F p then -(magnitudeOf F p : Int) else magnitudeOf F p

/-- Finite patterns of a format are ordered as their signed magnitudes. -/
theorem val_le_val_iff (F : Format) {v w : Nat} (p : BitVec v) (q : BitVec w) :
    val F p ≤ val F q ↔ signedMagnitude F p ≤ signedMagnitude F q := by
  have hmono := patternValue_strictMono (descriptor F).mantissaBits
  have hzero : patternValue (descriptor F).mantissaBits 0 = 0 := by simp [patternValue]
  have hle := hmono.le_iff_le (a := magnitudeOf F p) (b := magnitudeOf F q)
  have hge := hmono.le_iff_le (a := magnitudeOf F q) (b := magnitudeOf F p)
  have hp := hmono.le_iff_le (a := magnitudeOf F p) (b := 0)
  have hq := hmono.le_iff_le (a := magnitudeOf F q) (b := 0)
  rw [hzero] at hp hq
  rw [val, val, div_le_div_iff_of_pos_right (by positivity), Int.cast_le, scaledValue, scaledValue, scaledMagnitude_eq,
    scaledMagnitude_eq, signedMagnitude, signedMagnitude]
  split_ifs <;> omega

/-- Nothing but a NaN lies above the infinity's magnitude (R30). -/
theorem magnitudeOf_le_of_not_isNaN (F : Format) {w : Nat} {p : BitVec w} (hn : isNaN F p = false) :
    magnitudeOf F p ≤ exponentMax F * 2 ^ (descriptor F).mantissaBits :=
  not_lt.mp ((isNaN_iff F p).not.mp (Bool.eq_false_iff.mp hn))

/-- Extended numbers are ordered as their signed magnitudes, the infinity's being the greatest. -/
theorem extendedLe_iff (F : Format) {w : Nat} (p q : BitVec w) :
    ExtendedLe F p q ↔ isNaN F p = false ∧ isNaN F q = false ∧ signedMagnitude F p ≤ signedMagnitude F q := by
  refine and_congr_right fun hp => and_congr_right fun hq => ?_
  have hple := magnitudeOf_le_of_not_isNaN F hp
  have hqle := magnitudeOf_le_of_not_isNaN F hq
  have hpos : 0 < exponentMax F * 2 ^ (descriptor F).mantissaBits :=
    Nat.mul_pos (by have := (descriptor_regular F).2.1; omega) (Nat.two_pow_pos _)
  rw [isInfinity_iff, isInfinity_iff, isFinite_iff, isFinite_iff, val_le_val_iff, signedMagnitude, signedMagnitude]
  generalize exponentMax F * 2 ^ (descriptor F).mantissaBits = top at *
  -- In each combination of signs both sides are the same comparison of magnitudes, none of which exceeds `top`.
  cases signOf F p <;> cases signOf F q <;> simp only [Bool.false_eq_true, reduceCtorEq, if_true, if_false, and_true, and_false, false_or] <;>
    omega

/-- ENC8 is monotonic: it keeps signs and the order of magnitudes, and zeros stay zeros (R91). -/
theorem extendedLe_enc8 {f g : Word32} (h : ExtendedLe .binary32 f g) : ExtendedLe .e4m3 (enc8 f) (enc8 g) := by
  obtain ⟨-, -, hle⟩ := (extendedLe_iff .binary32 f g).mp h
  refine (extendedLe_iff .e4m3 _ _).mpr ⟨isNaN_enc8 f, isNaN_enc8 g, ?_⟩
  unfold signedMagnitude at hle ⊢
  rw [signOf_enc8, signOf_enc8]
  cases hf : signOf .binary32 f <;> cases hg : signOf .binary32 g <;>
    simp only [hf, hg, Bool.false_eq_true, if_true, if_false] at hle ⊢
  case false.false =>
    have := magnitudeOf_enc8_mono (f := f) (g := g) (by omega)
    omega
  case false.true =>
    have := magnitudeOf_enc8_of_zero (f := f) (by omega)
    have := magnitudeOf_enc8_of_zero (f := g) (by omega)
    omega
  case true.false => omega
  case true.true =>
    have := magnitudeOf_enc8_mono (f := g) (g := f) (by omega)
    omega

/-- DEC8 keeps the order of values: it is exact, and keeps infinities with their signs (R88, R90). -/
theorem extendedLe_dec8 {p q : Word8} (h : ExtendedLe .e4m3 p q) : ExtendedLe .binary32 (dec8 p) (dec8 q) := by
  obtain ⟨hp, hq, h⟩ := h
  refine ⟨isNaN_dec8 p, isNaN_dec8 q, ?_⟩
  rw [signOf_dec8, signOf_dec8, isFinite_dec8, isFinite_dec8]
  rcases h with ⟨hi, hs⟩ | ⟨hi, hs⟩ | ⟨hpf, hqf, hval⟩
  · exact .inl ⟨isInfinity_dec8_of_isInfinity hi, hs⟩
  · exact .inr (.inl ⟨isInfinity_dec8_of_isInfinity hi, hs⟩)
  · exact .inr (.inr ⟨hpf, hqf, by rwa [val_dec8 hpf, val_dec8 hqf]⟩)

end Sys2Proof.Machine
end

section
/-! The statements about the round trips through the micro-float and ENC8's monotonicity (44_float8_e4m3.md R91). -/

namespace Sys2Proof.Machine

/-- Settles O41: the composites of the two functions, which `exec` drives one after the other. -/
theorem microFloatRoundTrip : Obligations.MicroFloatRoundTrip := by
  refine ⟨fun p s => ⟨_, exec_dec8_eq p s, fun hcanon => ?_, fun h15 => ?_⟩, fun f s hf => ⟨_, exec_enc8 f s, ?_⟩⟩
  · have hn : isNaN .e4m3 p = false := Bool.eq_false_iff.mpr fun hn =>
      have ⟨hmax, hm⟩ := fields_of_isNaN .e4m3 hn
      hcanon.elim (fun h => h hmax) hm
    rw [exec_enc8, enc8_dec8_of_not_isNaN hn]
    rfl
  · rw [exec_enc8, enc8_dec8_of_not_isFinite (bne_eq_false_iff_eq.mpr h15)]
    rfl
  · have hback : dec8 (enc8 f) = f := by
      rcases hf with hi | ⟨-, p, hp, hval⟩
      · exact dec8_enc8_of_isInfinity hi
      · exact dec8_enc8_of_val_eq hp hval
    rw [exec_dec8_of_exec_enc8, hback]

/-- Settles O42: ENC8 and DEC8 each keep the order. -/
theorem enc8IsMonotonic : Obligations.Enc8IsMonotonic :=
  fun f g s hle => ⟨_, _, _, _, exec_enc8 f s, exec_enc8 g s, exec_dec8_of_exec_enc8 f s _, exec_dec8_of_exec_enc8 g s _,
    extendedLe_dec8 (extendedLe_enc8 hle)⟩

end Sys2Proof.Machine
end

section
/-! SUPPORT. The comparator's order (45_comparator.md R93 `fle`, `feq`) as the order of values. The infinities, too, stand in it at what `val`
reads off their fields: the magnitude 2^1024, above every finite one. -/

namespace Sys2Proof.Machine

/-- The fields of an infinity (R30). -/
theorem fields_of_isInfinity (F : Format) {w : Nat} {p : BitVec w} (h : isInfinity F p = true) :
    exponentOf F p = exponentMax F ∧ mantissaOf F p = 0 := by
  rw [isInfinity, beq_iff_eq, classify] at h
  split_ifs at h with _ _ hmax hm
  exact ⟨hmax, hm⟩

/-- The exact magnitude that an infinity's fields make up is the one the order gives it. -/
theorem scaledMagnitude_of_isInfinity {x : Word64} (h : isInfinity .binary64 x = true) : scaledMagnitude .binary64 x = 2 ^ 2098 := by
  obtain ⟨hmax, hmant⟩ := fields_of_isInfinity .binary64 h
  have hexp : exponentOf .binary64 x = 2047 := hmax
  rw [scaledMagnitude, if_neg (by omega), hexp, hmant, Nat.add_zero, ← pow_add,
    show (descriptor .binary64).mantissaBits + (2047 - 1) = 2098 from rfl]

/-- The place of a pattern in the order is its signed count of units, whatever its class. -/
theorem orderKey_eq_scaledValue (x : Word64) : orderKey x = scaledValue .binary64 x := by
  unfold orderKey
  split_ifs with hi hs
  · rw [scaledValue, if_pos hs, scaledMagnitude_of_isInfinity hi, Nat.cast_pow, Nat.cast_ofNat]
  · rw [scaledValue, if_neg hs, scaledMagnitude_of_isInfinity hi, Nat.cast_pow, Nat.cast_ofNat]
  · rfl

/-- Extended numbers are ordered as their values, the infinities' being those of their fields. -/
theorem extendedLe_iff_val (F : Format) {w : Nat} (p q : BitVec w) :
    ExtendedLe F p q ↔ isNaN F p = false ∧ isNaN F q = false ∧ val F p ≤ val F q := by
  rw [extendedLe_iff, val_le_val_iff]

/-- The order does not tell patterns of one value apart (R93). -/
theorem extendedLe_congr_left (F : Format) {w : Nat} {p p' : BitVec w} (q : BitVec w) (hp : isNaN F p = false) (hp' : isNaN F p' = false)
    (h : val F p = val F p') : ExtendedLe F p q ↔ ExtendedLe F p' q := by
  rw [extendedLe_iff_val, extendedLe_iff_val, hp, hp', h]

theorem extendedLe_congr_right (F : Format) {w : Nat} (p : BitVec w) {q q' : BitVec w} (hq : isNaN F q = false) (hq' : isNaN F q' = false)
    (h : val F q = val F q') : ExtendedLe F p q ↔ ExtendedLe F p q' := by
  rw [extendedLe_iff_val, extendedLe_iff_val, hq, hq', h]

/-- `fle` is the order of extended numbers (R93). -/
theorem fle_iff (x y : Word64) : fle x y = true ↔ ExtendedLe .binary64 x y := by
  rw [extendedLe_iff_val, val, val, div_le_div_iff_of_pos_right (by positivity), Int.cast_le, fle, orderKey_eq_scaledValue,
    orderKey_eq_scaledValue, Bool.and_eq_true, Bool.and_eq_true, Bool.not_eq_true', Bool.not_eq_true', decide_eq_true_iff, and_assoc]

/-- `feq` of finite patterns is equality of values (R93). -/
theorem feq_iff {x y : Word64} (hx : isFinite .binary64 x = true) (hy : isFinite .binary64 y = true) :
    feq x y = true ↔ val .binary64 x = val .binary64 y := by
  rw [val, val, div_left_inj' (by positivity), Int.cast_inj, feq, (not_nan_not_infinity_of_isFinite .binary64 x hx).1,
    (not_nan_not_infinity_of_isFinite .binary64 y hy).1, orderKey_eq_scaledValue, orderKey_eq_scaledValue]
  exact decide_eq_true_iff

end Sys2Proof.Machine
end

section
/-! The statement about the comparator's comparisons (45_comparator.md R93). -/

namespace Sys2Proof.Machine

/-- Settles O48: `fle_iff` and `feq_iff`. -/
theorem comparisonsAreOfExtendedNumbers : Obligations.ComparisonsAreOfExtendedNumbers :=
  fun x y => ⟨fle_iff x y, feq_iff⟩

end Sys2Proof.Machine
end

section
/-! SUPPORT. The maximum of two tolerances as a bound (45_comparator.md R92, R93 `fmaxnum`). -/

namespace Sys2Proof.Machine

/-- The maximum of two patterns that are no NaNs is one of the larger value (R93 `fmaxnum`). -/
theorem fmaxnum_of_not_isNaN {x y : Word64} (hx : isNaN .binary64 x = false) (hy : isNaN .binary64 y = false) :
    isNaN .binary64 (fmaxnum x y) = false ∧ val .binary64 (fmaxnum x y) = max (val .binary64 x) (val .binary64 y) := by
  have hle : fle x y = true ↔ val .binary64 x ≤ val .binary64 y := by
    rw [fle_iff, extendedLe_iff_val, hx, hy, eq_self, true_and, true_and]
  have hmax : fmaxnum x y = if fle x y then y else x := by
    rw [fmaxnum, hx, hy, if_neg Bool.false_ne_true, if_neg Bool.false_ne_true]
  by_cases h : fle x y = true
  · rw [hmax, if_pos h, max_eq_right (hle.mp h)]
    exact ⟨hy, rfl⟩
  · rw [hmax, if_neg h, max_eq_left (not_le.mp (hle.not.mp h)).le]
    exact ⟨hx, rfl⟩

theorem not_extendedLe_of_isNaN (F : Format) {w : Nat} (p : BitVec w) {q : BitVec w} (hq : isNaN F q = true) : ¬ ExtendedLe F p q :=
  fun ⟨_, hn, _⟩ => Bool.false_ne_true (hn.symm.trans hq)

/-- A number is at most the maximum of two tolerances exactly when it is at most one of them; a NaN accepts nothing (R92, R93 `fmaxnum`). -/
theorem extendedLe_fmaxnum_iff (d x y : Word64) :
    ExtendedLe .binary64 d (fmaxnum x y) ↔ ExtendedLe .binary64 d x ∨ ExtendedLe .binary64 d y := by
  cases hx : isNaN .binary64 x with
  | true => rw [fmaxnum, if_pos hx, or_iff_right (not_extendedLe_of_isNaN .binary64 d hx)]
  | false =>
    cases hy : isNaN .binary64 y with
    | true => rw [fmaxnum, if_neg (by simp [hx]), if_pos hy, or_iff_left (not_extendedLe_of_isNaN .binary64 d hy)]
    | false =>
      obtain ⟨hn, hval⟩ := fmaxnum_of_not_isNaN hx hy
      simp only [extendedLe_iff_val, hn, hval, hx, hy, le_max_iff, true_and, and_or_left]

end Sys2Proof.Machine
end

section
/-! SUPPORT. The parts of the tolerance test (45_comparator.md R92, R93): absolute values, the larger magnitude and the distance of two
finite numbers. -/

namespace Sys2Proof.Machine

theorem toNat_fabs (x : Word64) : (fabs x).toNat = magnitudeOf .binary64 x := by
  rw [fabs, BitVec.toNat_and]
  exact Nat.and_two_pow_sub_one_eq_mod x.toNat 63

@[simp] theorem magnitudeOf_fabs (x : Word64) : magnitudeOf .binary64 (fabs x) = magnitudeOf .binary64 x := by
  rw [magnitudeOf, toNat_fabs]
  exact Nat.mod_mod x.toNat (2 ^ 63)

@[simp] theorem signOf_fabs (x : Word64) : signOf .binary64 (fabs x) = false := by
  have hlt : magnitudeOf .binary64 x < 2 ^ 63 := Nat.mod_lt _ (Nat.two_pow_pos 63)
  rw [signOf_eq_decide .binary64 (fabs x) rfl, toNat_fabs]
  exact decide_eq_false hlt.not_ge

@[simp] theorem isFinite_fabs (x : Word64) : isFinite .binary64 (fabs x) = isFinite .binary64 x := by
  rw [Bool.eq_iff_iff, isFinite_iff, isFinite_iff, magnitudeOf_fabs]

@[simp] theorem isNaN_fabs (x : Word64) : isNaN .binary64 (fabs x) = isNaN .binary64 x := by
  rw [Bool.eq_iff_iff, isNaN_iff, isNaN_iff, magnitudeOf_fabs]

/-- Clearing the sign bit takes the absolute value (R93 `fabs`). -/
@[simp] theorem val_fabs (x : Word64) : val .binary64 (fabs x) = |val .binary64 x| := by
  rw [val_eq, signOf_fabs, abs_val, scaledMagnitude_eq, magnitudeOf_fabs, ← scaledMagnitude_eq, if_neg Bool.false_ne_true, one_mul]

/-- What is below the sign of a packed pattern does not depend on the sign. -/
theorem fabs_pack64 (negative : Bool) {m : Nat} (hm : m < 2 ^ 63) : fabs (pack64 negative m) = pack64 false m := by
  refine eq_of_sign_of_magnitude .binary64 rfl ?_ ?_
  · rw [signOf_fabs, signOf_pack64]
  · rw [magnitudeOf_fabs, magnitudeOf_pack64 negative hm, magnitudeOf_pack64 false hm]

/-- `larger` takes one of the two absolute values (R92). -/
theorem larger_cases (a b : Word64) : larger a b = fabs a ∨ larger a b = fabs b :=
  ite_eq_or_eq _ _ _

theorem signOf_larger (a b : Word64) : signOf .binary64 (larger a b) = false := by
  rcases larger_cases a b with h | h <;> rw [h, signOf_fabs]

theorem isFinite_larger {a b : Word64} (ha : isFinite .binary64 a = true) (hb : isFinite .binary64 b = true) :
    isFinite .binary64 (larger a b) = true := by
  rcases larger_cases a b with h | h <;> rwa [h, isFinite_fabs]

/-- The larger magnitude of two finite numbers (R92). -/
theorem val_larger {a b : Word64} (ha : isFinite .binary64 a = true) (hb : isFinite .binary64 b = true) :
    val .binary64 (larger a b) = max |val .binary64 a| |val .binary64 b| := by
  have hle : fle (fabs b) (fabs a) = true ↔ |val .binary64 b| ≤ |val .binary64 a| := by
    rw [fle_iff, extendedLe_iff_val, isNaN_fabs, isNaN_fabs, val_fabs, val_fabs, (not_nan_not_infinity_of_isFinite .binary64 a ha).1,
      (not_nan_not_infinity_of_isFinite .binary64 b hb).1, eq_self, true_and, true_and]
  by_cases h : fle (fabs b) (fabs a) = true
  · rw [larger, if_pos h, val_fabs, max_eq_left (hle.mp h)]
  · rw [larger, if_neg h, val_fabs, max_eq_right (not_le.mp (hle.not.mp h)).le]

/-- Of two different numbers one is not zero. -/
theorem val_larger_pos {a b : Word64} (ha : isFinite .binary64 a = true) (hb : isFinite .binary64 b = true)
    (hab : val .binary64 a ≠ val .binary64 b) : 0 < val .binary64 (larger a b) := by
  rw [val_larger ha hb, lt_max_iff, abs_pos, abs_pos]
  by_contra! h
  exact hab (h.1.trans h.2.symm)

/-- The larger magnitude is one pattern, in whichever order the two numbers come. -/
theorem larger_comm {a b : Word64} (ha : isFinite .binary64 a = true) (hb : isFinite .binary64 b = true) : larger a b = larger b a := by
  refine eq_of_sign_of_magnitude .binary64 rfl (by rw [signOf_larger, signOf_larger])
    (magnitudeOf_eq_of_scaledMagnitude_eq .binary64 (scaledMagnitude_eq_of_val_eq .binary64 ?_))
  rw [val_larger ha hb, val_larger hb ha, max_comm]

/-- The distance is the rounded magnitude of the exact difference in units (R93). -/
theorem fabs_fsub (a b : Word64) : fabs (fsub a b) =
    pack64 false (roundMagnitude .binary64 (scaledValue .binary64 a - scaledValue .binary64 b).natAbs 0) :=
  fabs_pack64 _ (roundMagnitude_binary64_lt _ 0)

theorem fabs_fsub_comm (a b : Word64) : fabs (fsub a b) = fabs (fsub b a) := by
  rw [fabs_fsub, fabs_fsub, ← Int.natAbs_neg, neg_sub]

/-- The distance is the exact one rounded once (R93). -/
theorem roundsTo_fabs_fsub (a b : Word64) : RoundsTo .binary64 |val .binary64 a - val .binary64 b| (fabs (fsub a b)) := by
  have hexact : |val .binary64 a - val .binary64 b| = (if false then -1 else 1) *
      (((scaledValue .binary64 a - scaledValue .binary64 b).natAbs : ℚ) / (2 ^ 0 * 2 ^ unitExponent .binary64)) := by
    rw [val, val, ← sub_div, ← Int.cast_sub, abs_div, Nat.cast_natAbs, Int.cast_abs, abs_of_pos (a := (2 : ℚ) ^ _) (by positivity)]
    simp
  rw [hexact, fabs_fsub]
  exact roundsTo_pack64 false _ 0

theorem isNaN_fabs_fsub (a b : Word64) : isNaN .binary64 (fabs (fsub a b)) = false := by
  have hle := roundMagnitude_le .binary64 (scaledValue .binary64 a - scaledValue .binary64 b).natAbs 0
  rw [Bool.eq_false_iff, Ne, isNaN_iff, fabs_fsub, magnitudeOf_pack64 _ (roundMagnitude_binary64_lt _ 0)]
  exact hle.not_gt

end Sys2Proof.Machine
end

section
/-! SUPPORT. What ISCLOSE answers, said once (45_comparator.md R92 to R95), and that the distance of two different numbers is positive. -/

namespace Sys2Proof.Machine

/-- A value that is not zero does not round to zero in a format that has it as a whole number of units (R93). -/
theorem roundMagnitude_pos (F : Format) {n : Nat} (hn : 0 < n) : 0 < roundMagnitude F n 0 := by
  have hinf : 0 < exponentMax F * 2 ^ (descriptor F).mantissaBits :=
    Nat.mul_pos (by have := (descriptor_regular F).2.1; omega) (Nat.two_pow_pos _)
  rw [roundMagnitude_eq, lt_min_iff]
  refine ⟨?_, hinf⟩
  rw [roundPattern]
  rcases Nat.eq_zero_or_pos (msb n - (0 + (descriptor F).mantissaBits)) with hdrop | hdrop
  · rw [hdrop, Nat.zero_mul, Nat.zero_add, Nat.zero_add, roundShift_zero]
    exact hn
  · exact Nat.add_pos_left (Nat.mul_pos hdrop (Nat.two_pow_pos _)) _

theorem val_pos_of_magnitudeOf_pos (F : Format) {w : Nat} {p : BitVec w} (hs : signOf F p = false) (hm : 0 < magnitudeOf F p) :
    0 < val F p := by
  have hpos : 0 < scaledMagnitude F p := by
    rw [scaledMagnitude_eq]
    exact (Nat.zero_le _).trans_lt (patternValue_strictMono _ hm)
  rw [val_eq, hs, if_neg Bool.false_ne_true, one_mul]
  positivity

theorem val_nonpos_of_signOf (F : Format) {w : Nat} {p : BitVec w} (hs : signOf F p = true) : val F p ≤ 0 := by
  rw [val_eq, hs, if_pos rfl, neg_one_mul, neg_div, neg_nonpos]
  positivity

theorem val_of_isZero (F : Format) {w : Nat} {p : BitVec w} (h : isZero F p = true) : val F p = 0 := by
  have hzero : scaledMagnitude F p = 0 := by
    rw [scaledMagnitude_eq, magnitudeOf_of_isZero F h]
    simp [patternValue]
  rw [val_eq, hzero, Nat.cast_zero, mul_zero, zero_div]

/-- The rounded distance of two different numbers is positive: it is a whole number of units (R96). -/
theorem val_fabs_fsub_pos {a b : Word64} (hab : val .binary64 a ≠ val .binary64 b) : 0 < val .binary64 (fabs (fsub a b)) := by
  have hunits : scaledValue .binary64 a - scaledValue .binary64 b ≠ 0 :=
    fun h => hab (by rw [val, val, sub_eq_zero.mp h])
  refine val_pos_of_magnitudeOf_pos .binary64 (signOf_fabs _) ?_
  rw [fabs_fsub, magnitudeOf_pack64 _ (roundMagnitude_binary64_lt _ 0)]
  exact roundMagnitude_pos .binary64 (Int.natAbs_pos.mpr hunits)

/-- A tolerance that is not positive accepts no two different numbers (R96, R98). -/
theorem not_extendedLe_of_val_nonpos {a b t : Word64} (hab : val .binary64 a ≠ val .binary64 b) (ht : val .binary64 t ≤ 0) :
    ¬ ExtendedLe .binary64 (fabs (fsub a b)) t := by
  rw [extendedLe_iff_val]
  rintro ⟨-, -, hle⟩
  exact (ht.trans_lt (val_fabs_fsub_pos hab)).not_ge hle

/-- The first branch of ISCLOSE (R94). -/
theorem isclose_of_not_isFinite {a b : Word64} (rel absTol : Word64)
    (h : isFinite .binary64 a = false ∨ isFinite .binary64 b = false) : isclose a b rel absTol = false :=
  if_pos (by simpa using h)

/-- The second and the third branch of ISCLOSE (R92, R95). -/
theorem isclose_of_isFinite {a b : Word64} (rel absTol : Word64) (ha : isFinite .binary64 a = true) (hb : isFinite .binary64 b = true) :
    isclose a b rel absTol = if feq a b then true else fle (fabs (fsub a b)) (tolerance a b rel absTol) :=
  if_neg (by simp [ha, hb])

/-- Different numbers come to the tolerance test (R92). -/
theorem isclose_of_val_ne {a b : Word64} (rel absTol : Word64) (ha : isFinite .binary64 a = true) (hb : isFinite .binary64 b = true)
    (hab : val .binary64 a ≠ val .binary64 b) : isclose a b rel absTol = fle (fabs (fsub a b)) (tolerance a b rel absTol) := by
  rw [isclose_of_isFinite rel absTol ha hb, if_neg ((feq_iff ha hb).not.mpr hab)]

/-- Two finite numbers are close when their values are equal or one of the tolerances accepts their distance (R92). -/
theorem isclose_iff {a b : Word64} (rel absTol : Word64) (ha : isFinite .binary64 a = true) (hb : isFinite .binary64 b = true) :
    isclose a b rel absTol = true ↔ val .binary64 a = val .binary64 b ∨
      ExtendedLe .binary64 (fabs (fsub a b)) (fmul rel (larger a b)) ∨ ExtendedLe .binary64 (fabs (fsub a b)) absTol := by
  rw [← extendedLe_fmaxnum_iff, ← fle_iff, ← feq_iff ha hb, isclose_of_isFinite rel absTol ha hb]
  cases feq a b <;> simp [tolerance]

/-- Different numbers are close when one of the tolerances accepts their distance (R92). -/
theorem isclose_iff_of_val_ne {a b : Word64} (rel absTol : Word64) (ha : isFinite .binary64 a = true) (hb : isFinite .binary64 b = true)
    (hab : val .binary64 a ≠ val .binary64 b) : isclose a b rel absTol = true ↔
      ExtendedLe .binary64 (fabs (fsub a b)) (fmul rel (larger a b)) ∨ ExtendedLe .binary64 (fabs (fsub a b)) absTol :=
  (isclose_iff rel absTol ha hb).trans (or_iff_right hab)

/-- Tolerances that are not positive accept equal values only (R96, R98). -/
theorem isclose_iff_val_eq {a b rel absTol : Word64} (ha : isFinite .binary64 a = true) (hb : isFinite .binary64 b = true)
    (hrel : val .binary64 a ≠ val .binary64 b → val .binary64 (fmul rel (larger a b)) ≤ 0) (habs : val .binary64 absTol ≤ 0) :
    isclose a b rel absTol = true ↔ val .binary64 a = val .binary64 b := by
  rw [isclose_iff rel absTol ha hb, or_iff_left_iff_imp]
  intro htol
  by_contra hab
  exact htol.elim (not_extendedLe_of_val_nonpos hab (hrel hab)) (not_extendedLe_of_val_nonpos hab habs)

/-- The product with a positive number keeps the sign of a relative tolerance that is no NaN (R93 `fmul`). -/
theorem signOf_fmul {x y : Word64} (hx : isNaN .binary64 x = false) (hy : isFinite .binary64 y = true) (hpos : 0 < val .binary64 y) :
    signOf .binary64 (fmul x y) = signOf .binary64 x := by
  obtain ⟨hfin, hinf, -⟩ := fmulRoundsTheExactProduct x y hy hpos
  rcases isFinite_or_isInfinity_of_not_isNaN .binary64 hx with h | h
  · exact (hfin h).2
  · rw [hinf h]

/-- A negative relative tolerance gives a product that is not positive (R98). -/
theorem val_fmul_larger_nonpos {a b rel : Word64} (ha : isFinite .binary64 a = true) (hb : isFinite .binary64 b = true)
    (hab : val .binary64 a ≠ val .binary64 b) (hn : isNaN .binary64 rel = false) (hs : signOf .binary64 rel = true) :
    val .binary64 (fmul rel (larger a b)) ≤ 0 :=
  val_nonpos_of_signOf .binary64 ((signOf_fmul hn (isFinite_larger ha hb) (val_larger_pos ha hb hab)).trans hs)

/-- The positive infinity, by its class and sign (R30). -/
theorem eq_posInfinity_iff (t : Word64) :
    t = 0x7FF0000000000000 ↔ isInfinity .binary64 t = true ∧ signOf .binary64 t = false := by
  refine ⟨fun h => by rw [h]; exact ⟨rfl, rfl⟩, fun ⟨hi, hs⟩ => eq_of_sign_of_magnitude .binary64 rfl hs ?_⟩
  rw [(isInfinity_iff .binary64 t).mp hi]
  rfl

/-- Only the positive infinity is as great as itself (R93 `fle`). -/
theorem posInfinity_extendedLe_iff (t : Word64) : ExtendedLe .binary64 0x7FF0000000000000#64 t ↔ t = 0x7FF0000000000000 := by
  refine ⟨?_, fun h => h ▸ ⟨rfl, rfl, .inr (.inl ⟨rfl, rfl⟩)⟩⟩
  rintro ⟨-, -, ⟨-, hneg⟩ | hinf | ⟨hfin, -⟩⟩
  · exact absurd hneg (by decide)
  · exact (eq_posInfinity_iff t).mpr hinf
  · exact absurd hfin (by decide)

/-- Every number is at most the positive infinity (R93 `fle`). -/
theorem extendedLe_of_posInfinity {d t : Word64} (hd : isNaN .binary64 d = false) (hi : isInfinity .binary64 t = true)
    (hs : signOf .binary64 t = false) : ExtendedLe .binary64 d t := by
  rw [(eq_posInfinity_iff t).mpr ⟨hi, hs⟩]
  exact ⟨hd, rfl, .inr (.inl ⟨rfl, rfl⟩)⟩

end Sys2Proof.Machine
end

section
/-! The statements about ISCLOSE that ask nothing of how its arithmetic rounds but that the distance of different numbers is positive
(45_comparator.md R94 to R98). -/

namespace Sys2Proof.Machine

/-- ISCLOSE drives the bit of its Boolean, and nothing else (R48). -/
theorem exec_isclose_eq {a b rel absTol : Word64} {v : Bool} (h : isclose a b rel absTol = v) (s : State) :
    exec (.isclose a b rel absTol) s = .next { s with y := booleanLane v } := by
  rw [exec_isclose, h, State.driveY]

/-- ISCLOSE drives 1 when its condition holds and 0 when it does not. -/
theorem exec_isclose_of_iff {a b rel absTol : Word64} {P : Prop} (h : isclose a b rel absTol = true ↔ P) (s : State) :
    ∃ y : Word32, exec (.isclose a b rel absTol) s = .next { s with y := y } ∧ (y = 0 ∨ y = 1) ∧ (y = 1 ↔ P) :=
  ⟨_, exec_isclose_eq rfl s, booleanLane_cases _, (booleanLane_eq_one _).trans h⟩

/-- Settles O44: the first branch. -/
theorem iscloseRejectsInfinityAndNaN : Obligations.IscloseRejectsInfinityAndNaN := by
  intro a b rel absTol s h
  exact exec_isclose_eq (isclose_of_not_isFinite rel absTol (h.imp bne_eq_false_iff_eq.mpr bne_eq_false_iff_eq.mpr)) s

/-- Settles O45: the second branch. -/
theorem iscloseAcceptsEqualValues : Obligations.IscloseAcceptsEqualValues :=
  fun _ _ rel absTol s ha hb hab => exec_isclose_eq ((isclose_iff rel absTol ha hb).mpr (.inl hab)) s

/-- Swapping the two numbers changes neither the branch nor the distance nor the tolerance (R96). -/
theorem isclose_comm (a b rel absTol : Word64) : isclose a b rel absTol = isclose b a rel absTol := by
  cases ha : isFinite .binary64 a with
  | false => rw [isclose_of_not_isFinite rel absTol (.inl ha), isclose_of_not_isFinite rel absTol (.inr ha)]
  | true =>
    cases hb : isFinite .binary64 b with
    | false => rw [isclose_of_not_isFinite rel absTol (.inl hb), isclose_of_not_isFinite rel absTol (.inr hb)]
    | true => rw [Bool.eq_iff_iff, isclose_iff rel absTol ha hb, isclose_iff rel absTol hb ha, eq_comm, fabs_fsub_comm, larger_comm ha hb]

/-- Settles O50: `isclose_comm`. -/
theorem iscloseIsSymmetric : Obligations.IscloseIsSymmetric := by
  intro a b rel absTol s
  rw [exec_isclose, exec_isclose, isclose_comm]

/-- Settles O51: the product of a zero is a zero, and zeros are not positive. -/
theorem iscloseZeroTolerancesMeanEquality : Obligations.IscloseZeroTolerancesMeanEquality := by
  intro a b rel absTol s ha hb hrel habs
  have hprod : val .binary64 (fmul rel (larger a b)) = 0 := by
    rw [fmul_eq_self _ (by simp [hrel]), val_of_isZero .binary64 hrel]
  exact exec_isclose_of_iff (isclose_iff_val_eq ha hb (fun _ => hprod.le) (val_of_isZero .binary64 habs).le) s

/-- Settles O54: a negative tolerance and its product are not positive. -/
theorem iscloseNegativeTolerancesAcceptEqualityOnly : Obligations.IscloseNegativeTolerancesAcceptEqualityOnly := by
  intro a b rel absTol s ha hb hrel hsrel _ _ hsabs _
  exact exec_isclose_of_iff (isclose_iff_val_eq ha hb (fun hab => val_fmul_larger_nonpos ha hb hab hrel hsrel)
    (val_nonpos_of_signOf .binary64 hsabs)) s

/-- Settles O52: the product of the infinity is the infinity, which accepts every distance. -/
theorem iscloseInfiniteRelativeToleranceAcceptsAllFinite : Obligations.IscloseInfiniteRelativeToleranceAcceptsAllFinite := by
  intro a b absTol s ha hb
  have hprod : fmul 0x7FF0000000000000 (larger a b) = 0x7FF0000000000000 := fmul_eq_self _ (by decide)
  have haccept : ExtendedLe .binary64 (fabs (fsub a b)) (fmul 0x7FF0000000000000 (larger a b)) := by
    rw [hprod]
    exact extendedLe_of_posInfinity (isNaN_fabs_fsub a b) rfl rfl
  exact exec_isclose_eq ((isclose_iff _ absTol ha hb).mpr (.inr (.inl haccept))) s

/-- Settles O53: the rounded distance is the positive infinity. -/
theorem iscloseOverflowedDistanceNeedsInfiniteTolerance : Obligations.IscloseOverflowedDistanceNeedsInfiniteTolerance := by
  intro a b rel absTol s ha hb hover
  have hab : val .binary64 a ≠ val .binary64 b := by
    intro h
    rw [h, sub_self, abs_zero] at hover
    exact (overflowThreshold_pos .binary64).not_ge hover
  have hinf : isInfinity .binary64 (fabs (fsub a b)) = true := by
    have hround := roundsTo_fabs_fsub a b
    rw [RoundsTo, abs_abs, if_neg hover.not_gt] at hround
    exact hround.1
  refine exec_isclose_of_iff ?_ s
  rw [isclose_of_val_ne rel absTol ha hb hab, fle_iff, (eq_posInfinity_iff _).mpr ⟨hinf, signOf_fabs _⟩]
  exact posInfinity_extendedLe_iff _

/-- Settles O55: a NaN tolerance, and the product of a NaN, accept nothing. -/
theorem iscloseIgnoresNaNTolerance : Obligations.IscloseIgnoresNaNTolerance := by
  refine fun a b rel absTol s ha hb hab => ⟨fun hn => ?_, fun hn => ?_⟩ <;>
    refine exec_isclose_of_iff ((isclose_iff_of_val_ne rel absTol ha hb hab).trans ?_) s
  · rw [fmul_eq_self _ (by simp [hn])]
    exact or_iff_right (not_extendedLe_of_isNaN .binary64 _ hn)
  · exact or_iff_left (not_extendedLe_of_isNaN .binary64 _ hn)

end Sys2Proof.Machine
end

section
/-! SUPPORT. Rounding has one result, up to the sign of a zero (00_scope.md R12, 45_comparator.md R93), in binary64. -/

namespace Sys2Proof.Machine

theorem not_isNaN_of_roundsTo (F : Format) {w : Nat} {r : ℚ} {p : BitVec w} (h : RoundsTo F r p) : isNaN F p = false := by
  unfold RoundsTo at h
  split_ifs at h
  · exact (not_nan_not_infinity_of_isFinite F p h.1).1
  · rw [Bool.eq_false_iff, Ne, isNaN_iff, (isInfinity_iff F p).mp h.1]
    exact lt_irrefl _

/-- The mantissa field and the signed magnitude have one parity. -/
theorem signedMagnitude_emod_two (F : Format) {w : Nat} (p : BitVec w) : signedMagnitude F p % 2 = (mantissaOf F p : Int) % 2 := by
  have heven : 2 ∣ 2 ^ (descriptor F).mantissaBits := dvd_pow_self 2 (descriptor_regular F).1.ne'
  have hmod := Nat.mod_mod_of_dvd (magnitudeOf F p) heven
  rw [magnitudeOf_mod] at hmod
  rw [signedMagnitude]
  split_ifs <;> omega

/-- Every signed magnitude below the infinity's is that of a finite binary64 pattern. -/
theorem exists_isFinite_signedMagnitude (n : Int) (h : n.natAbs < exponentMax .binary64 * 2 ^ (descriptor .binary64).mantissaBits) :
    ∃ z : Word64, isFinite .binary64 z = true ∧ signedMagnitude .binary64 z = n := by
  have hlt : n.natAbs < 2 ^ 63 := h.trans (by decide)
  refine ⟨pack64 (decide (n < 0)) n.natAbs, ?_, ?_⟩
  · rwa [isFinite_iff, magnitudeOf_pack64 _ hlt]
  · simp only [signedMagnitude, signOf_pack64, magnitudeOf_pack64 _ hlt, decide_eq_true_iff]
    split_ifs <;> omega

/-- Above every finite binary64 pattern that is not the greatest there is a next one. -/
theorem exists_next_isFinite {p q : Word64} (hp : isFinite .binary64 p = true) (hq : isFinite .binary64 q = true)
    (hlt : signedMagnitude .binary64 p < signedMagnitude .binary64 q) :
    ∃ z : Word64, isFinite .binary64 z = true ∧ signedMagnitude .binary64 z = signedMagnitude .binary64 p + 1 := by
  refine exists_isFinite_signedMagnitude _ ?_
  rw [isFinite_iff] at hp hq
  unfold signedMagnitude at hlt ⊢
  split_ifs at hlt ⊢ <;> omega

theorem val_lt_val_iff (F : Format) {v w : Nat} (p : BitVec v) (q : BitVec w) :
    val F p < val F q ↔ signedMagnitude F p < signedMagnitude F q :=
  lt_iff_lt_of_le_iff_le (val_le_val_iff F q p)

/-- If two finite numbers are equally near to `r` and nothing is nearer, then nothing lies between them; so one of them is odd, if they
are not equal. -/
theorem val_le_of_nearestEven {r : ℚ} {p q : Word64} (hp : NearestEven .binary64 r p) (hq : NearestEven .binary64 r q) :
    val .binary64 q ≤ val .binary64 p := by
  obtain ⟨hpf, hpnear⟩ := hp
  obtain ⟨hqf, hqnear⟩ := hq
  by_contra! hlt
  have hdist := le_antisymm (hpnear q hqf).1 (hqnear p hpf).1
  have hpeven : mantissaOf .binary64 p % 2 = 0 := ((hpnear q hqf).2 hdist).resolve_left hlt.ne
  have hqeven : mantissaOf .binary64 q % 2 = 0 := ((hqnear p hpf).2 hdist.symm).resolve_left hlt.ne'
  have hmid : r - val .binary64 p = -(r - val .binary64 q) := (abs_eq_abs.mp hdist).resolve_left fun h => hlt.ne (sub_right_inj.mp h)
  obtain ⟨z, hzf, hz⟩ := exists_next_isFinite hpf hqf ((val_lt_val_iff .binary64 p q).mp hlt)
  have hpz : val .binary64 p < val .binary64 z := by rw [val_lt_val_iff, hz]; omega
  have hqz : val .binary64 q ≤ val .binary64 z := by
    by_contra! hzq
    have hnearer : |r - val .binary64 z| < |r - val .binary64 p| := by
      rw [abs_of_pos (a := r - val .binary64 p) (by linarith), abs_lt]
      constructor <;> linarith
    exact hnearer.not_ge (hpnear z hzf).1
  rw [val_le_val_iff] at hqz
  rw [val_lt_val_iff] at hlt
  have hpparity := signedMagnitude_emod_two .binary64 p
  have hqparity := signedMagnitude_emod_two .binary64 q
  omega

/-- Infinities of one sign stand at one place in the order. -/
theorem val_eq_of_isInfinity {p q : Word64} (hp : isInfinity .binary64 p = true) (hq : isInfinity .binary64 q = true)
    (hs : signOf .binary64 p = signOf .binary64 q) : val .binary64 p = val .binary64 q := by
  rw [val_eq, val_eq, hs, scaledMagnitude_of_isInfinity hp, scaledMagnitude_of_isInfinity hq]

/-- Two results of rounding one number have one value (R12). -/
theorem val_eq_of_roundsTo {r : ℚ} {p q : Word64} (hp : RoundsTo .binary64 r p) (hq : RoundsTo .binary64 r q) :
    val .binary64 p = val .binary64 q := by
  unfold RoundsTo at hp hq
  split_ifs at hp hq
  · exact le_antisymm (val_le_of_nearestEven hq hp) (val_le_of_nearestEven hp hq)
  · exact val_eq_of_isInfinity hp.1 hq.1 (Bool.eq_iff_iff.mpr (hp.2.trans hq.2.symm))

/-- A comparison with a rounded number does not depend on which result of the rounding is taken. -/
theorem extendedLe_left_of_roundsTo {r : ℚ} {d d' : Word64} (t : Word64) (h : RoundsTo .binary64 r d) (h' : RoundsTo .binary64 r d') :
    ExtendedLe .binary64 d t ↔ ExtendedLe .binary64 d' t :=
  extendedLe_congr_left .binary64 t (not_isNaN_of_roundsTo .binary64 h) (not_isNaN_of_roundsTo .binary64 h') (val_eq_of_roundsTo h h')

theorem extendedLe_right_of_roundsTo {r : ℚ} {t t' : Word64} (d : Word64) (h : RoundsTo .binary64 r t) (h' : RoundsTo .binary64 r t') :
    ExtendedLe .binary64 d t ↔ ExtendedLe .binary64 d t' :=
  extendedLe_congr_right .binary64 d (not_isNaN_of_roundsTo .binary64 h) (not_isNaN_of_roundsTo .binary64 h') (val_eq_of_roundsTo h h')

end Sys2Proof.Machine
end

section
/-! The statements about ISCLOSE as a test on rounded numbers (45_comparator.md R92, R93, R98). -/

namespace Sys2Proof.Machine

/-- The distance accepted, as any result of rounding the exact distance (R93). -/
theorem extendedLe_fabs_fsub_iff {a b d : Word64} (t : Word64) (hd : RoundsTo .binary64 |val .binary64 a - val .binary64 b| d) :
    ExtendedLe .binary64 (fabs (fsub a b)) t ↔ ExtendedLe .binary64 d t :=
  extendedLe_left_of_roundsTo t (roundsTo_fabs_fsub a b) hd

/-- The relative tolerance computed is the exact product rounded once (R93). -/
theorem roundsTo_fmul_larger {a b rel : Word64} (ha : isFinite .binary64 a = true) (hb : isFinite .binary64 b = true)
    (hab : val .binary64 a ≠ val .binary64 b) (hrel : isFinite .binary64 rel = true) :
    RoundsTo .binary64 (val .binary64 rel * max |val .binary64 a| |val .binary64 b|) (fmul rel (larger a b)) := by
  rw [← val_larger ha hb]
  exact ((fmulRoundsTheExactProduct rel _ (isFinite_larger ha hb) (val_larger_pos ha hb hab)).1 hrel).1

/-- Settles O49: the distance and the product the block computes are results of rounding the exact ones. -/
theorem iscloseComparesDistanceWithTolerance : Obligations.IscloseComparesDistanceWithTolerance := by
  intro a b rel absTol d t s ha hb hab hrel _ hd ht
  refine exec_isclose_of_iff ((isclose_iff_of_val_ne rel absTol ha hb hab).trans ?_) s
  rw [extendedLe_fabs_fsub_iff _ hd, extendedLe_fabs_fsub_iff _ hd,
    extendedLe_right_of_roundsTo d (roundsTo_fmul_larger ha hb hab hrel) ht]

/-- An infinity accepts the distance of two different numbers exactly when it is the positive one (R93 `fle`). -/
theorem fabs_fsub_extendedLe_infinity_iff {a b t : Word64} (hab : val .binary64 a ≠ val .binary64 b)
    (hi : isInfinity .binary64 t = true) : ExtendedLe .binary64 (fabs (fsub a b)) t ↔ signOf .binary64 t = false := by
  cases hs : signOf .binary64 t with
  | false => exact iff_of_true (extendedLe_of_posInfinity (isNaN_fabs_fsub a b) hi hs) rfl
  | true => exact iff_of_false (not_extendedLe_of_val_nonpos hab (val_nonpos_of_signOf .binary64 hs)) nofun

/-- Settles O57: the negative tolerance accepts nothing, so the other decides. -/
theorem iscloseLeavesANegativeToleranceToTheOther : Obligations.IscloseLeavesANegativeToleranceToTheOther := by
  intro a b rel absTol d s ha hb hab hnrel _ hd
  obtain ⟨y, hexec, hbit, hy⟩ := exec_isclose_of_iff (isclose_iff_of_val_ne rel absTol ha hb hab) s
  refine ⟨y, hexec, hbit, fun ⟨hs, _⟩ => ?_, fun ⟨hs, _⟩ => ?_⟩
  · rw [hy, or_iff_right (not_extendedLe_of_val_nonpos hab (val_fmul_larger_nonpos ha hb hab hnrel hs)),
      extendedLe_fabs_fsub_iff _ hd]
  · rw [hy, or_iff_left (not_extendedLe_of_val_nonpos hab (val_nonpos_of_signOf .binary64 hs))]
    refine ⟨fun hi => ?_, fun hf t ht => ?_⟩
    · rw [fmul_eq_self _ (by simp [hi])]
      exact fabs_fsub_extendedLe_infinity_iff hab hi
    · rw [extendedLe_fabs_fsub_iff _ hd]
      exact extendedLe_right_of_roundsTo d (roundsTo_fmul_larger ha hb hab hf) ht

end Sys2Proof.Machine
end

section
/-! SUPPORT. The fields of WIDEN64's result, class by class, and that no value is rounded (45_comparator.md R100). It is the host's
computation, beside the machine (log 11). -/

namespace Sys2Proof.Machine

/-- Widening keeps the sign (R100). -/
theorem signOf_widen64 (x : Word32) : signOf .binary64 (widen64 x) = signOf .binary32 x :=
  (signOf_withSign .binary64 _ _ rfl).trans (sign32_getLsbD x)

theorem exponent32_eq_zero_iff (x : Word32) : exponent32 x = 0 ↔ exponentOf .binary32 x = 0 := by
  rw [← exponent32_toNat, ← BitVec.toNat_inj]
  rfl

theorem exponent32_eq_max_iff (x : Word32) : exponent32 x = 255 ↔ exponentOf .binary32 x = 255 := by
  rw [← exponent32_toNat, ← BitVec.toNat_inj]
  rfl

theorem mantissa32_eq_zero_iff (x : Word32) : mantissa32 x = 0 ↔ mantissaOf .binary32 x = 0 := by
  rw [← mantissa32_toNat, ← BitVec.toNat_inj]
  rfl

/-- A result packed from an exponent field and the binary32 mantissa, shifted to some place in the wider field. -/
theorem fields_widen64_of_magnitude {x : Word32} {e n : Nat} (he : e < 2048)
    (h : widen64Magnitude x = BitVec.ofNat 11 e ++ ((mantissa32 x).setWidth 52 <<< n)) :
    exponentOf .binary64 (widen64 x) = e ∧ mantissaOf .binary64 (widen64 x) = mantissaOf .binary32 x * 2 ^ n % 2 ^ 52 := by
  obtain ⟨hexp, hmant⟩ := fields_withSign_append .binary64 (sign32 x) (BitVec.ofNat 11 e) ((mantissa32 x).setWidth 52 <<< n) rfl rfl
  rw [widen64, h, hexp, hmant, BitVec.toNat_ofNat, BitVec.toNat_shiftLeft, BitVec.toNat_setWidth_of_le (by decide), mantissa32_toNat,
    Nat.shiftLeft_eq]
  exact ⟨Nat.mod_eq_of_lt he, rfl⟩

/-- A zero stays a zero (R100). -/
theorem fields_widen64_of_zero {x : Word32} (h0 : exponentOf .binary32 x = 0) (hm : mantissaOf .binary32 x = 0) :
    exponentOf .binary64 (widen64 x) = 0 ∧ mantissaOf .binary64 (widen64 x) = 0 := by
  have hmag : widen64Magnitude x = 0#11 ++ 0#52 := by
    rw [widen64Magnitude, if_pos ((exponent32_eq_zero_iff x).mpr h0), if_pos ((mantissa32_eq_zero_iff x).mpr hm)]
    rfl
  rw [widen64, hmag]
  exact fields_withSign_append .binary64 (sign32 x) 0#11 0#52 rfl rfl

/-- A subnormal is normalised: the leading one of its mantissa, at position `k`, becomes the hidden one (R100). -/
theorem fields_widen64_of_subnormal {x : Word32} {k : Nat} (h0 : exponentOf .binary32 x = 0) (hk : 2 ^ k ≤ mantissaOf .binary32 x)
    (hk' : mantissaOf .binary32 x < 2 ^ (k + 1)) :
    exponentOf .binary64 (widen64 x) = 874 + k ∧
    mantissaOf .binary64 (widen64 x) = (mantissaOf .binary32 x - 2 ^ k) * 2 ^ (52 - k) := by
  have hne : mantissaOf .binary32 x ≠ 0 := by have := Nat.two_pow_pos k; omega
  have hmsb : msb (mantissa32 x).toNat = k := by
    rw [mantissa32_toNat]
    exact (Nat.log2_eq_iff hne).mpr ⟨hk, hk'⟩
  have hk23 : k < 23 := hmsb ▸ msb_lt_width ((mantissa32_eq_zero_iff x).not.mpr hne)
  have hmag : widen64Magnitude x = BitVec.ofNat 11 (874 + k) ++ ((mantissa32 x).setWidth 52 <<< (52 - k)) := by
    rw [widen64Magnitude, if_pos ((exponent32_eq_zero_iff x).mpr h0), if_neg ((mantissa32_eq_zero_iff x).not.mpr hne), hmsb]
  obtain ⟨hexp, hmant⟩ := fields_widen64_of_magnitude (by omega) hmag
  refine ⟨hexp, hmant.trans ?_⟩
  have hfull : 2 ^ 52 = 2 ^ k * 2 ^ (52 - k) := by rw [← pow_add, show k + (52 - k) = 52 by omega]
  rw [hfull, Nat.mul_mod_mul_right, Nat.mod_eq_sub_mod hk, Nat.mod_eq_of_lt]
  rw [pow_succ] at hk'
  omega

/-- A number with its leading one is rebiased, and its mantissa stands at the top of the field (R100). -/
theorem fields_widen64_of_normal {x : Word32} (h0 : exponentOf .binary32 x ≠ 0) (hmax : exponentOf .binary32 x ≠ 255) :
    exponentOf .binary64 (widen64 x) = exponentOf .binary32 x + 896 ∧
    mantissaOf .binary64 (widen64 x) = mantissaOf .binary32 x * 2 ^ 29 := by
  have hm := mantissaOf_binary32_lt x
  have he : exponentOf .binary32 x ≤ 255 := exponentOf_lt .binary32 x
  have hmag : widen64Magnitude x = BitVec.ofNat 11 (exponentOf .binary32 x + 896) ++ ((mantissa32 x).setWidth 52 <<< 29) := by
    rw [widen64Magnitude, if_neg ((exponent32_eq_zero_iff x).not.mpr h0), if_neg ((exponent32_eq_max_iff x).not.mpr hmax),
      exponent32_toNat]
  obtain ⟨hexp, hmant⟩ := fields_widen64_of_magnitude (by omega) hmag
  exact ⟨hexp, hmant.trans (Nat.mod_eq_of_lt (by omega))⟩

/-- The exponent field of all ones stays that, and the mantissa stands at the top of the field (R100). -/
theorem fields_widen64_of_max {x : Word32} (hmax : exponentOf .binary32 x = 255) :
    exponentOf .binary64 (widen64 x) = 2047 ∧ mantissaOf .binary64 (widen64 x) = mantissaOf .binary32 x * 2 ^ 29 := by
  have hm := mantissaOf_binary32_lt x
  have hmag : widen64Magnitude x = BitVec.ofNat 11 2047 ++ ((mantissa32 x).setWidth 52 <<< 29) := by
    rw [widen64Magnitude, if_neg ((exponent32_eq_zero_iff x).not.mpr (by omega)), if_pos ((exponent32_eq_max_iff x).mpr hmax)]
  obtain ⟨hexp, hmant⟩ := fields_widen64_of_magnitude (by omega) hmag
  exact ⟨hexp, hmant.trans (Nat.mod_eq_of_lt (by omega))⟩

/-- A binary64 significand normalised to its leading one at position `k` stands for the same magnitude, in a unit 2^925 times smaller. -/
theorem scaledMagnitude_binary64_of_leadingOne {p : Word64} {q k d : Nat} (hk : 2 ^ k ≤ q) (hk52 : k ≤ 52)
    (he : exponentOf .binary64 p = 874 + k + d) (hm : mantissaOf .binary64 p = (q - 2 ^ k) * 2 ^ (52 - k)) :
    scaledMagnitude .binary64 p = q * 2 ^ d * 2 ^ 925 := by
  have hfull : 2 ^ 52 = 2 ^ k * 2 ^ (52 - k) := by rw [← pow_add, show k + (52 - k) = 52 by omega]
  have hvalue : scaledMagnitude .binary64 p = (2 ^ 52 + mantissaOf .binary64 p) * 2 ^ (exponentOf .binary64 p - 1) :=
    if_neg (by omega)
  rw [hvalue, he, hm, hfull, ← Nat.add_mul, Nat.add_sub_cancel' hk, Nat.mul_assoc, Nat.mul_assoc, ← pow_add, ← pow_add,
    show 52 - k + (874 + k + d - 1) = d + 925 by omega]

/-- Nothing is rounded: a finite pattern stays finite, and its exact magnitude is the same, in a unit 2^925 times smaller (R100). -/
theorem isFinite_and_scaledMagnitude_widen64 {x : Word32} (hf : isFinite .binary32 x = true) :
    isFinite .binary64 (widen64 x) = true ∧ scaledMagnitude .binary64 (widen64 x) = scaledMagnitude .binary32 x * 2 ^ 925 := by
  have hmax : exponentOf .binary32 x ≠ 255 := bne_iff_ne.mp hf
  have hfinite {e : Nat} (he : exponentOf .binary64 (widen64 x) = e) (hlt : e < 2047) : isFinite .binary64 (widen64 x) = true :=
    bne_iff_ne.mpr (he.trans_ne hlt.ne)
  by_cases h0 : exponentOf .binary32 x = 0
  · have hn : scaledMagnitude .binary32 x = mantissaOf .binary32 x * 2 ^ 0 := (if_pos h0).trans (Nat.mul_one _).symm
    by_cases hm : mantissaOf .binary32 x = 0
    · obtain ⟨hexp, hmant⟩ := fields_widen64_of_zero h0 hm
      refine ⟨hfinite hexp (by norm_num), ?_⟩
      rw [hn, hm, Nat.zero_mul, Nat.zero_mul]
      exact (if_pos hexp).trans hmant
    · have hk : 2 ^ Nat.log2 (mantissaOf .binary32 x) ≤ mantissaOf .binary32 x := Nat.log2_self_le hm
      have hk23 : Nat.log2 (mantissaOf .binary32 x) < 23 := (Nat.log2_lt hm).mpr (mantissaOf_binary32_lt x)
      obtain ⟨hexp, hmant⟩ := fields_widen64_of_subnormal h0 hk Nat.lt_log2_self
      refine ⟨hfinite hexp (by omega), ?_⟩
      rw [hn]
      exact scaledMagnitude_binary64_of_leadingOne hk (by omega) hexp hmant
  · obtain ⟨hexp, hmant⟩ := fields_widen64_of_normal h0 hmax
    have he : exponentOf .binary32 x ≤ 255 := exponentOf_lt .binary32 x
    refine ⟨hfinite hexp (by omega), ?_⟩
    rw [scaledMagnitude_binary32 x h0]
    exact scaledMagnitude_binary64_of_leadingOne (k := 23) (by omega) (by norm_num) (by omega) (by rw [hmant, Nat.add_sub_cancel_left])

/-- The value is kept (R100). -/
theorem val_widen64 {x : Word32} (hf : isFinite .binary32 x = true) : val .binary64 (widen64 x) = val .binary32 x := by
  have hunits : unitExponent .binary64 = unitExponent .binary32 + 925 := rfl
  obtain ⟨-, hexact⟩ := isFinite_and_scaledMagnitude_widen64 hf
  rw [val_eq, val_eq, signOf_widen64, hexact, hunits, pow_add, Nat.cast_mul, Nat.cast_pow, Nat.cast_ofNat, ← mul_assoc]
  exact mul_div_mul_right _ _ (by positivity)

/-- With the exponent field of all ones the mantissa tells an infinity from a NaN, before and after (R100). -/
theorem classify_widen64_of_max {x : Word32} (hmax : exponentOf .binary32 x = 255) :
    classify .binary64 (widen64 x) = if mantissaOf .binary32 x = 0 then .infinity else .nan := by
  obtain ⟨hexp, hmant⟩ := fields_widen64_of_max hmax
  have hzero : mantissaOf .binary64 (widen64 x) = 0 ↔ mantissaOf .binary32 x = 0 := by omega
  have hmax64 : exponentMax .binary64 = 2047 := rfl
  simp only [classify, hexp, hmax64, hzero, if_true, OfNat.ofNat_ne_zero, if_false]

end Sys2Proof.Machine
end

section
/-! The statement about the host's widening (45_comparator.md R100). -/

namespace Sys2Proof.Machine

/-- Settles O56: sign, value and class are kept. -/
theorem wideningIsExact : Obligations.WideningIsExact := by
  refine fun x => ⟨signOf_widen64 x, fun hf => ?_, fun hi => ?_, fun hn => ?_⟩
  · exact ⟨(isFinite_and_scaledMagnitude_widen64 hf).1, val_widen64 hf⟩
  · obtain ⟨hmax, hm⟩ := fields_of_isInfinity .binary32 hi
    rw [isInfinity, classify_widen64_of_max hmax, if_pos hm]
    rfl
  · obtain ⟨hmax, hm⟩ := fields_of_isNaN .binary32 hn
    rw [isNaN, classify_widen64_of_max hmax, if_neg hm]
    rfl

end Sys2Proof.Machine
end

section
/-! SUPPORT. One step with a command pending, said in full through CORE: every field of the state it answers (log 3). -/

namespace Sys2Proof.Machine

/-- With a command pending a step completes exactly where CORE is defined on that command, and of the state before it only the rest
of the stream and the record go into the next one (R14, R116). -/
theorem step_next_iff_of_pending {s t : State} {c : Command} {rest : List Command} (hp : s.pending = c :: rest) :
    step s = .next t ↔ ∃ v, coreOutput c = some v ∧
      t = { inputs := c, y := v, pending := rest, transcript := s.transcript ++ [(c, v)] } := by
  rw [step_next_iff, present_of_cons hp]
  rfl

end Sys2Proof.Machine
end

section
/-! The statements about the first evaluation after power-up and about one operation following another (70_reset_and_hazards.md R114,
R116). -/

namespace Sys2Proof.Machine

/-- Settles O13: the state between the two commands goes into the second step only as its record, so both steps drive CORE's value for
the second command. -/
theorem anyOperationMayFollowAnyOther : Obligations.AnyOperationMayFollowAnyOther := by
  intro s t c d rest hp hstep hd
  obtain ⟨v, hv, rfl⟩ := (step_next_iff_of_pending hp).mp hstep
  obtain ⟨w, hw⟩ := coreOutput_isSome_of_wellFormed hd
  refine ⟨_, _, (step_next_iff_of_pending rfl).mpr ⟨w, hw, rfl⟩, (step_next_iff_of_pending rfl).mpr ⟨w, hw, rfl⟩, rfl, ?_⟩
  rintro rfl
  exact Option.some.inj (hw.symm.trans hv)

/-- Settles O17: `step_next_iff_of_pending` from reset, where the record is empty. -/
theorem firstCommandAfterResetIsAnswered : Obligations.FirstCommandAfterResetIsAnswered :=
  fun _ v hv => (step_next_iff_of_pending rfl).mpr ⟨v, hv, rfl⟩

end Sys2Proof.Machine
end
